-- ==== Sys2Proof/Word.lean ====
section
/-! DEFINITION. The word types of the machine (spec/00_scope.md R5, R6). -/

namespace Sys2Proof

/-- A byte: a V register, a timer, a memory cell, an immediate `kk`. -/
abbrev Byte := BitVec 8

/-- A 16-bit value: an instruction word, PC, I, a stack entry. -/
abbrev Word := BitVec 16

/-- Four bits: the family nibble, the sub-code, the sprite height `n` (R94). -/
abbrev Nibble := BitVec 4

/-- A 12-bit address field `nnn` (R94). -/
abbrev Addr12 := BitVec 12

/-- The index of a general register, V0 to VF (R21). -/
abbrev RegIdx := Fin 16

/-- VF, the register that is also the ALU's and the compositor's flag output (R22). -/
abbrev regF : RegIdx := 15

/-- V0, the implicit offset register of Bnnn (R147). -/
abbrev reg0 : RegIdx := 0

end Sys2Proof
end

