-- ==== Sys2Proof/Syntax.lean ====
section
/-! DEFINITION. The instruction set: one constructor per row of spec/opcode_table.json (spec/30_encoding.md R97, R99). -/

namespace Sys2Proof

/-- One constructor per row of the opcode table, in the table's order. Don't-care bits (R98) are no operand and are
not held (log entry 10). The four fallback rows hold the word's bits 11:0, which they leave without meaning. -/
inductive Instr where
  /-- 0-E0 CLS. -/
  | cls
  /-- 0-EE RET. -/
  | ret
  /-- 1nnn JP nnn. -/
  | jp (nnn : Addr12)
  /-- 2nnn CALL nnn. -/
  | call (nnn : Addr12)
  /-- 3xkk SE Vx, kk. -/
  | seImm (x : RegIdx) (kk : Byte)
  /-- 4xkk SNE Vx, kk. -/
  | sneImm (x : RegIdx) (kk : Byte)
  /-- 5xy- SE Vx, Vy. -/
  | seReg (x y : RegIdx)
  /-- 6xkk LD Vx, kk. -/
  | ldImm (x : RegIdx) (kk : Byte)
  /-- 7xkk ADD Vx, kk. -/
  | addImm (x : RegIdx) (kk : Byte)
  /-- 8xy0 LD Vx, Vy. -/
  | ldReg (x y : RegIdx)
  /-- 8xy1 OR Vx, Vy. -/
  | orReg (x y : RegIdx)
  /-- 8xy2 AND Vx, Vy. -/
  | andReg (x y : RegIdx)
  /-- 8xy3 XOR Vx, Vy. -/
  | xorReg (x y : RegIdx)
  /-- 8xy4 ADD Vx, Vy. -/
  | addReg (x y : RegIdx)
  /-- 8xy5 SUB Vx, Vy. -/
  | subReg (x y : RegIdx)
  /-- 8xy6 SHR Vx. -/
  | shr (x : RegIdx)
  /-- 8xy7 SUBN Vx, Vy. -/
  | subnReg (x y : RegIdx)
  /-- 8xyE SHL Vx. -/
  | shl (x : RegIdx)
  /-- 9xy- SNE Vx, Vy. -/
  | sneReg (x y : RegIdx)
  /-- Annn LD I, nnn. -/
  | ldI (nnn : Addr12)
  /-- Bnnn JP V0, nnn. -/
  | jpV0 (nnn : Addr12)
  /-- Cxkk RND Vx, kk. -/
  | rnd (x : RegIdx) (kk : Byte)
  /-- Dxyn DRW Vx, Vy, n. -/
  | drw (x y : RegIdx) (n : Nibble)
  /-- Ex9E SKP Vx. -/
  | skp (x : RegIdx)
  /-- ExA1 SKNP Vx. -/
  | sknp (x : RegIdx)
  /-- Fx07 LD Vx, DT. -/
  | ldVxDt (x : RegIdx)
  /-- Fx0A LD Vx, K. -/
  | ldVxK (x : RegIdx)
  /-- Fx15 LD DT, Vx. -/
  | ldDtVx (x : RegIdx)
  /-- Fx18 LD ST, Vx. -/
  | ldStVx (x : RegIdx)
  /-- Fx1E ADD I, Vx. -/
  | addI (x : RegIdx)
  /-- Fx29 LD F, Vx. -/
  | ldF (x : RegIdx)
  /-- Fx33 LD B, Vx. -/
  | ldB (x : RegIdx)
  /-- Fx55 LD [I], Vx. -/
  | storeRegs (x : RegIdx)
  /-- Fx65 LD Vx, [I]. -/
  | loadRegs (x : RegIdx)
  /-- An ignored word of family 0x0 (R99), bits 11:0 given. -/
  | ignored0 (low : Addr12)
  /-- An ignored word of family 0x8 (R99), bits 11:0 given. -/
  | ignored8 (low : Addr12)
  /-- An ignored word of family 0xE (R99), bits 11:0 given. -/
  | ignoredE (low : Addr12)
  /-- An ignored word of family 0xF (R99), bits 11:0 given. -/
  | ignoredF (low : Addr12)
  deriving DecidableEq, Repr

end Sys2Proof
end

