-- ==== Sys2Proof/WellFormed.lean ====
section
/-! DEFINITION. Which terms of Instr stand for a word. Operand ranges are in the types; what is left to check is that
an ignored word carries no sub-code of a listed instruction (spec/30_encoding.md R99). -/

namespace Sys2Proof

/-- The sub-codes of family 0x0, its low byte (R96, R97). -/
def subCodes0 : List Byte := [0xE0, 0xEE]

/-- The sub-codes of family 0x8, its low nibble (R96, R97). -/
def subCodes8 : List Nibble := [0x0, 0x1, 0x2, 0x3, 0x4, 0x5, 0x6, 0x7, 0xE]

/-- The sub-codes of family 0xE, its low byte (R96, R97). -/
def subCodesE : List Byte := [0x9E, 0xA1]

/-- The sub-codes of family 0xF, its low byte (R96, R97). -/
def subCodesF : List Byte := [0x07, 0x0A, 0x15, 0x18, 0x1E, 0x29, 0x33, 0x55, 0x65]

/-- The instruction stands for some word. -/
def Instr.wf : Instr → Bool
  | .cls | .ret | .jp _ | .call _ | .seImm _ _ | .sneImm _ _ | .seReg _ _ | .ldImm _ _ | .addImm _ _
  | .ldReg _ _ | .orReg _ _ | .andReg _ _ | .xorReg _ _ | .addReg _ _ | .subReg _ _ | .shr _
  | .subnReg _ _ | .shl _ | .sneReg _ _ | .ldI _ | .jpV0 _ | .rnd _ _ | .drw _ _ _ | .skp _ | .sknp _
  | .ldVxDt _ | .ldVxK _ | .ldDtVx _ | .ldStVx _ | .addI _ | .ldF _ | .ldB _ | .storeRegs _ | .loadRegs _ => true
  | .ignored0 low => !subCodes0.contains (low.extractLsb' 0 8)
  | .ignored8 low => !subCodes8.contains (low.extractLsb' 0 4)
  | .ignoredE low => !subCodesE.contains (low.extractLsb' 0 8)
  | .ignoredF low => !subCodesF.contains (low.extractLsb' 0 8)

end Sys2Proof
end

