-- ==== Sys2Proof/Decode.lean ====
section
/-! DEFINITION. From instruction words to instructions and back (spec/30_encoding.md R93 to R101). -/

namespace Sys2Proof

/-! ### The fields of a word (R94) -/

/-- Bits 15:12, the instruction family. -/
def fieldFamily (w : Word) : Nibble := w.extractLsb' 12 4

/-- `x`, bits 11:8. -/
def fieldX (w : Word) : RegIdx := (w.extractLsb' 8 4).toFin

/-- `y`, bits 7:4. -/
def fieldY (w : Word) : RegIdx := (w.extractLsb' 4 4).toFin

/-- `nnn`, bits 11:0. -/
def fieldNnn (w : Word) : Addr12 := w.extractLsb' 0 12

/-- `kk`, bits 7:0. -/
def fieldKk (w : Word) : Byte := w.extractLsb' 0 8

/-- `n`, bits 3:0. -/
def fieldN (w : Word) : Nibble := w.extractLsb' 0 4

/-! ### Decoding (R96, R97, R99) -/

/-- Family 0x0 keys on the low byte. -/
def decodeFamily0 (w : Word) : Instr :=
  match fieldKk w with
  | 0xE0#8 => .cls
  | 0xEE#8 => .ret
  | _ => .ignored0 (fieldNnn w)

/-- Family 0x8 keys on the low nibble. -/
def decodeFamily8 (w : Word) : Instr :=
  match fieldN w with
  | 0x0#4 => .ldReg (fieldX w) (fieldY w)
  | 0x1#4 => .orReg (fieldX w) (fieldY w)
  | 0x2#4 => .andReg (fieldX w) (fieldY w)
  | 0x3#4 => .xorReg (fieldX w) (fieldY w)
  | 0x4#4 => .addReg (fieldX w) (fieldY w)
  | 0x5#4 => .subReg (fieldX w) (fieldY w)
  | 0x6#4 => .shr (fieldX w)
  | 0x7#4 => .subnReg (fieldX w) (fieldY w)
  | 0xE#4 => .shl (fieldX w)
  | _ => .ignored8 (fieldNnn w)

/-- Family 0xE keys on the low byte. -/
def decodeFamilyE (w : Word) : Instr :=
  match fieldKk w with
  | 0x9E#8 => .skp (fieldX w)
  | 0xA1#8 => .sknp (fieldX w)
  | _ => .ignoredE (fieldNnn w)

/-- Family 0xF keys on the low byte. -/
def decodeFamilyF (w : Word) : Instr :=
  match fieldKk w with
  | 0x07#8 => .ldVxDt (fieldX w)
  | 0x0A#8 => .ldVxK (fieldX w)
  | 0x15#8 => .ldDtVx (fieldX w)
  | 0x18#8 => .ldStVx (fieldX w)
  | 0x1E#8 => .addI (fieldX w)
  | 0x29#8 => .ldF (fieldX w)
  | 0x33#8 => .ldB (fieldX w)
  | 0x55#8 => .storeRegs (fieldX w)
  | 0x65#8 => .loadRegs (fieldX w)
  | _ => .ignoredF (fieldNnn w)

/-- `Decode(w)`: a function of the top nibble and, in families 0x0, 0x8, 0xE and 0xF, of the sub-dispatch key (R96).
Total: every word has a meaning (R101). The last arm is family 0xF. -/
def decodeWord (w : Word) : Instr :=
  match fieldFamily w with
  | 0x0#4 => decodeFamily0 w
  | 0x1#4 => .jp (fieldNnn w)
  | 0x2#4 => .call (fieldNnn w)
  | 0x3#4 => .seImm (fieldX w) (fieldKk w)
  | 0x4#4 => .sneImm (fieldX w) (fieldKk w)
  | 0x5#4 => .seReg (fieldX w) (fieldY w)
  | 0x6#4 => .ldImm (fieldX w) (fieldKk w)
  | 0x7#4 => .addImm (fieldX w) (fieldKk w)
  | 0x8#4 => decodeFamily8 w
  | 0x9#4 => .sneReg (fieldX w) (fieldY w)
  | 0xA#4 => .ldI (fieldNnn w)
  | 0xB#4 => .jpV0 (fieldNnn w)
  | 0xC#4 => .rnd (fieldX w) (fieldKk w)
  | 0xD#4 => .drw (fieldX w) (fieldY w) (fieldN w)
  | 0xE#4 => decodeFamilyE w
  | _ => decodeFamilyF w

/-- The word of two consecutive bytes, big-endian: the byte at the lower address is bits 15:8 (R67, R68). -/
def wordOfBytes (hi lo : Byte) : Word := hi ++ lo

/-- Why bytes are no instruction. -/
inductive DecodeError where
  /-- Fewer than the two bytes every instruction has (R93). Raised by `decode`; safe, and no step raises it: the fetch
  always has two bytes or is out of range (R91). -/
  | truncated
  deriving DecidableEq, Repr

/-- The byte decoder: it always consumes two bytes (R93, R103). -/
def decode : List Byte → Except DecodeError (Instr × List Byte)
  | hi :: lo :: rest => .ok (decodeWord (wordOfBytes hi lo), rest)
  | [_] => .error .truncated
  | [] => .error .truncated

/-! ### Encoding (R94, R97, R102: don't-care bits are 0) -/

/-- The word of four nibbles, the most significant first. -/
def word4 (a b c d : Nibble) : Word := a ++ b ++ c ++ d

/-- The nibble that names a register. -/
def regNibble (r : RegIdx) : Nibble := BitVec.ofFin r

/-- Family, x, kk. -/
def wordXKk (fam : Nibble) (x : RegIdx) (kk : Byte) : Word :=
  word4 fam (regNibble x) (kk.extractLsb' 4 4) (kk.extractLsb' 0 4)

/-- Family, x, y, n. -/
def wordXYN (fam : Nibble) (x y : RegIdx) (n : Nibble) : Word :=
  word4 fam (regNibble x) (regNibble y) n

/-- Family, nnn. -/
def wordNnn (fam : Nibble) (nnn : Addr12) : Word :=
  word4 fam (nnn.extractLsb' 8 4) (nnn.extractLsb' 4 4) (nnn.extractLsb' 0 4)

/-- The word of an instruction (the pattern column of R97). -/
def encode : Instr → Word
  | .cls => wordXKk 0x0 0 0xE0
  | .ret => wordXKk 0x0 0 0xEE
  | .jp nnn => wordNnn 0x1 nnn
  | .call nnn => wordNnn 0x2 nnn
  | .seImm x kk => wordXKk 0x3 x kk
  | .sneImm x kk => wordXKk 0x4 x kk
  | .seReg x y => wordXYN 0x5 x y 0x0
  | .ldImm x kk => wordXKk 0x6 x kk
  | .addImm x kk => wordXKk 0x7 x kk
  | .ldReg x y => wordXYN 0x8 x y 0x0
  | .orReg x y => wordXYN 0x8 x y 0x1
  | .andReg x y => wordXYN 0x8 x y 0x2
  | .xorReg x y => wordXYN 0x8 x y 0x3
  | .addReg x y => wordXYN 0x8 x y 0x4
  | .subReg x y => wordXYN 0x8 x y 0x5
  | .shr x => wordXYN 0x8 x 0 0x6
  | .subnReg x y => wordXYN 0x8 x y 0x7
  | .shl x => wordXYN 0x8 x 0 0xE
  | .sneReg x y => wordXYN 0x9 x y 0x0
  | .ldI nnn => wordNnn 0xA nnn
  | .jpV0 nnn => wordNnn 0xB nnn
  | .rnd x kk => wordXKk 0xC x kk
  | .drw x y n => wordXYN 0xD x y n
  | .skp x => wordXKk 0xE x 0x9E
  | .sknp x => wordXKk 0xE x 0xA1
  | .ldVxDt x => wordXKk 0xF x 0x07
  | .ldVxK x => wordXKk 0xF x 0x0A
  | .ldDtVx x => wordXKk 0xF x 0x15
  | .ldStVx x => wordXKk 0xF x 0x18
  | .addI x => wordXKk 0xF x 0x1E
  | .ldF x => wordXKk 0xF x 0x29
  | .ldB x => wordXKk 0xF x 0x33
  | .storeRegs x => wordXKk 0xF x 0x55
  | .loadRegs x => wordXKk 0xF x 0x65
  | .ignored0 low => wordNnn 0x0 low
  | .ignored8 low => wordNnn 0x8 low
  | .ignoredE low => wordNnn 0xE low
  | .ignoredF low => wordNnn 0xF low

/-- The bytes of an instruction as memory holds them, the most significant first (R68). -/
def encodeBytes (i : Instr) : List Byte :=
  [(encode i).extractLsb' 8 8, (encode i).extractLsb' 0 8]

/-- The 16-bit word of the host's number `w` of `nbits` bits, the bits above `nbits` zero. -/
def tableWord (nbits w : Nat) : Word := BitVec.ofNat 16 (w % 2 ^ nbits)

/-- What the byte decoder reads from the host's number, its two bytes laid out big-endian (R68). -/
def decodeTableWord (nbits w : Nat) : Option Instr :=
  match decode [(tableWord nbits w).extractLsb' 8 8, (tableWord nbits w).extractLsb' 0 8] with
  | .ok (i, _) => some i
  | .error _ => none

end Sys2Proof
end

