-- ==== Sys2Proof/Config.lean ====
section
/-! DEFINITION. What an implementation fixes (spec/00_scope.md R5) and the free values. -/

namespace Sys2Proof.Config

/-- `MEM_SIZE` (R5, R60). -/
abbrev memSize : Nat := 4096

/-- `FONT_BASE` (R5, R62). -/
abbrev fontBase : Nat := 0x050

/-- The length of `FONT` (R5, R62). -/
abbrev fontSize : Nat := 80

/-- `PROG_BASE`, also the reset PC (R5, R322). -/
abbrev progBase : Nat := 0x200

/-- `PROG_MAX`, the largest program image (R5, R283). -/
abbrev progMax : Nat := 3584

/-- `DISP_W` (R5, R29). -/
abbrev dispW : Nat := 64

/-- `DISP_H` (R5, R29). -/
abbrev dispH : Nat := 32

/-- The parameters of the block that R5 leaves to the one who builds it: `FONT` (R62, D20) and `STACK_DEPTH` (R25, D3).
`State.resetWith` takes them; a state carries them, and nothing writes them (log entries 4 and 5). The third, OPEN
parameter `STEPS_PER_TICK` is the host schedule's and no argument of the block (R280, D21): `hostSchedule` takes it. -/
structure Params where
  /-- `FONT`: 80 bytes, glyph g being bytes 5·g to 5·g + 4. -/
  font : Vector Byte fontSize
  /-- `STACK_DEPTH`: how many entries the call stack has. -/
  stackDepth : Nat
  deriving DecidableEq, Repr

/-- The free value behind RND: the byte the host presents as the `rnd` input of a STEP when nothing else says which
(R5 `RND`, R90, R181, decision D14). Nothing is known of it: no body. DESIGN CHOICE, safe: log entry 1. -/
opaque freeRnd : Nat → Byte

end Sys2Proof.Config
end

