-- ==== Sys2Proof/Machine/Font.lean ====
section
/-! DEFINITION. The defaults of the parameters FONT (spec/20_memory.md R62) and STACK_DEPTH (spec/00_scope.md R5). -/

namespace Sys2Proof.Machine

/-- Glyphs 0 to 7, row 0 of each first; bit 7 is the leftmost pixel (R62). -/
def fontLow : List Byte :=
  [0xF0, 0x90, 0x90, 0x90, 0xF0] ++ [0x20, 0x60, 0x20, 0x20, 0x70] ++
  [0xF0, 0x10, 0xF0, 0x80, 0xF0] ++ [0xF0, 0x10, 0xF0, 0x10, 0xF0] ++
  [0x90, 0x90, 0xF0, 0x10, 0x10] ++ [0xF0, 0x80, 0xF0, 0x10, 0xF0] ++
  [0xF0, 0x80, 0xF0, 0x90, 0xF0] ++ [0xF0, 0x10, 0x20, 0x40, 0x40]

/-- Glyphs 8 to F (R62). -/
def fontHigh : List Byte :=
  [0xF0, 0x90, 0xF0, 0x90, 0xF0] ++ [0xF0, 0x90, 0xF0, 0x10, 0xF0] ++
  [0xF0, 0x90, 0xF0, 0x90, 0x90] ++ [0xE0, 0x90, 0xE0, 0x90, 0xE0] ++
  [0xF0, 0x80, 0x80, 0x80, 0xF0] ++ [0xE0, 0x90, 0x90, 0x90, 0xE0] ++
  [0xF0, 0x80, 0xF0, 0x80, 0xF0] ++ [0xF0, 0x80, 0xF0, 0x80, 0x80]

/-- The default FONT (R62, D20). UNVERIFIED, unsafe: log entry 5. -/
def defaultFont : Vector Byte Config.fontSize := ⟨(fontLow ++ fontHigh).toArray, rfl⟩

/-- The parameters at their defaults; 16 stack entries (R5, D3; DESIGN CHOICE, unsafe: log entry 4). -/
def defaultParams : Config.Params := { font := defaultFont, stackDepth := 16 }

end Sys2Proof.Machine
end

