-- ==== Sys2Proof/Machine/State.lean ====
section
/-! DEFINITION. The machine's state (spec/10_state.md R20), the reasons a step can stop, and the state after reset (R40). -/

namespace Sys2Proof.Machine

/-- MEM (R33, R60), sparse: the bytes that differ from what reset leaves there, addresses strictly rising
(`Memory.wf` in Ops.lean; log entry 7). -/
abbrev Memory := List Host.Cell

/-- DISP (R29): 32 rows of 64 pixels; pixel (px, py) is bit px of row py (log entry 8). -/
abbrev Display := Vector (BitVec Config.dispW) Config.dispH

/-- The defined bits of FAULT (R32). -/
inductive FaultBit where
  /-- Stack underflow, bit 0: RET with SP = 0. -/
  | su
  /-- Stack overflow, bit 1: CALL with SP = STACK_DEPTH. -/
  | so
  /-- Key index out of range, bit 2: SKP or SKNP with V[x] > 15. -/
  | kr
  /-- Data address out of range, bit 3: an effective address of 0x1000 or above. -/
  | ar
  /-- Fetch out of range, bit 4: a STEP with PC of 0xFFF or above. -/
  | fr
  deriving DecidableEq, Repr

/-- Every item of R20, and the model's own three fields: the parameter FONT and two for the `rnd` input of STEP. -/
structure State where
  /-- MEM (R33, R60). -/
  mem : Memory
  /-- V0 to VF (R21). -/
  v : Vector Byte 16
  /-- I, the index register (R23). -/
  i : Word
  /-- PC (R24). -/
  pc : Word
  /-- STACK, entry 0 first; entries at index SP and above are stale (R25). Its length is the parameter STACK_DEPTH, which
  nothing changes (log entry 4). -/
  stack : List Word
  /-- SP, how many entries are in use: at most STACK_DEPTH in every run (R25; log entry 9). -/
  sp : Nat
  /-- DT, the delay timer (R27). -/
  dt : Byte
  /-- ST, the sound timer (R28). -/
  st : Byte
  /-- DISP (R29). -/
  disp : Display
  /-- REDRAW (R30). -/
  redraw : Bool
  /-- KEYS: bit k is KEYS[k], 1 is down (R31, R37). -/
  keys : BitVec 16
  /-- FAULT (R32). -/
  fault : Byte
  /-- The model's own: the parameter FONT (R5, R62), which nothing writes (log entry 5). -/
  font : Vector Byte Config.fontSize
  /-- The model's own: the byte the host presents as `rnd` to the coming STEP (R37, R90; log entry 1). -/
  rnd : Byte
  /-- The model's own: how many free values `rnd` has been given so far (log entry 1). -/
  draws : Nat
  deriving DecidableEq, Repr

/-- No step stops with a fault: the block has no exceptions or traps (R270), and `fault(B)` sets a bit of the FAULT
register in a NEXT state (R10, R271). The type is empty; nothing raises it, which is safe. -/
inductive Fault : Type
  deriving DecidableEq, Repr

/-- Why a step gives no meaning. -/
inductive Refusal where
  /-- Raised only by an arm of `exec` for an instruction that has no meaning yet; safe. No arm raises it: every 16-bit
  word has a meaning (R101). -/
  | notModelled (mnemonic : String)
  deriving DecidableEq, Repr

/-- The state right after RESET of a block with parameters p (R40, R320). Memory lists nothing: what an unlisted address
reads as IS the reset contents. `rnd` and `draws` are the model's own (DESIGN CHOICE: log entry 2). -/
def State.resetWith (p : Config.Params) : State where
  mem := []
  v := Vector.replicate 16 0
  i := 0x0000
  pc := 0x0200
  stack := List.replicate p.stackDepth 0
  sp := 0
  dt := 0
  st := 0
  disp := Vector.replicate Config.dispH 0
  redraw := false
  keys := 0
  fault := 0
  font := p.font
  rnd := Config.freeRnd 0
  draws := 1

/-- The state right after RESET, the parameters at their defaults (R5). -/
def State.reset : State := State.resetWith defaultParams

/-- STACK_DEPTH of the block (R5, R25). -/
def State.stackDepth (s : State) : Nat := s.stack.length

/-- The parameters of the block (R5). -/
def State.params (s : State) : Config.Params := { font := s.font, stackDepth := s.stackDepth }

end Sys2Proof.Machine
end

