-- ==== Sys2Proof/Machine/Ops.lean ====
section
/-! DEFINITION. The named operations over memory, registers, the stack, the display and FAULT.
The block has no exceptions (spec/60_exceptions.md R270, R275): the one operation that stands where other machines take
one is `State.raise`, the `fault(B)` of 00_scope.md R10. -/

namespace Sys2Proof.Machine

/-! ### Memory (20_memory.md) -/

/-- The byte RESET leaves at an address, and so what an unlisted address reads as: FONT at 0x050..0x09F, else 0x00
(R40, R61, R320). -/
def initialByte (font : Vector Byte Config.fontSize) (a : Nat) : Byte :=
  if Config.fontBase ≤ a then font.toList.getD (a - Config.fontBase) 0 else 0

/-- The byte at an address. -/
def Memory.read (font : Vector Byte Config.fontSize) : Memory → Nat → Byte
  | [], a => initialByte font a
  | (k, b) :: rest, a => if k = a then b else Memory.read font rest a

/-- Unlist an address. -/
def Memory.forget : Memory → Nat → Memory
  | [], _ => []
  | (k, b) :: rest, a => if k = a then Memory.forget rest a else (k, b) :: Memory.forget rest a

/-- List an address, before the first higher one. -/
def Memory.insertCell : Memory → Nat → Byte → Memory
  | [], a, b => [(a, b)]
  | (k, c) :: rest, a, b => if a < k then (a, b) :: (k, c) :: rest else (k, c) :: Memory.insertCell rest a b

/-- Write one byte, keeping the canonical form. -/
def Memory.write (font : Vector Byte Config.fontSize) (m : Memory) (a : Nat) (b : Byte) : Memory :=
  if b = initialByte font a then m.forget a else (m.forget a).insertCell a b

/-- The canonical form: addresses strictly rising and inside MEM, no entry equal to what an unlisted address reads as. -/
abbrev Memory.wf (font : Vector Byte Config.fontSize) (m : Memory) : Prop :=
  m.Pairwise (fun c d => c.1 < d.1) ∧ ∀ c ∈ m, c.1 < Config.memSize ∧ c.2 ≠ initialByte font c.1

/-- MEM[a], with no range check. -/
def State.peek (s : State) (a : Nat) : Byte := s.mem.read s.font a

/-- `MEM[a] <- b`, with no range check. -/
def State.poke (s : State) (a : Nat) (b : Byte) : State := { s with mem := s.mem.write s.font a b }

/-! ### Registers (10_state.md) -/

/-- V[r] (R21). -/
def State.getV (s : State) (r : RegIdx) : Byte := s.v.get r

/-- `V[r] <- b` (R21: no register is hard-wired). -/
def State.setV (s : State) (r : RegIdx) (b : Byte) : State := { s with v := s.v.set r.val b r.isLt }

/-- `I <- w` (R23). -/
def State.setI (s : State) (w : Word) : State := { s with i := w }

/-- `PC <- w` (R24). -/
def State.setPc (s : State) (w : Word) : State := { s with pc := w }

/-- `DT <- b` (R27). -/
def State.setDt (s : State) (b : Byte) : State := { s with dt := b }

/-- `ST <- b` (R28). -/
def State.setSt (s : State) (b : Byte) : State := { s with st := b }

/-- `REDRAW <- b` (R30). -/
def State.setRedraw (s : State) (b : Bool) : State := { s with redraw := b }

/-- `KEYS[k] <- ks[k]` for all k (R31, R282). -/
def State.setKeys (s : State) (ks : BitVec 16) : State := { s with keys := ks }

/-- KEYS[k] = 1 (R31). -/
def State.keyDown (s : State) (k : Nat) : Bool := s.keys.getLsbD k

/-- The host presents `b` as the `rnd` of the coming STEP (R37). -/
def State.presentRnd (s : State) (b : Byte) : State := { s with rnd := b }

/-- After a draw the next `rnd` is a fresh free value (log entry 1). -/
def State.freshRnd (s : State) : State := { s with rnd := Config.freeRnd s.draws, draws := s.draws + 1 }

/-! ### FAULT (R10, R32) -/

/-- The bit number in FAULT, which is the cause code (R32, R271). -/
def FaultBit.index : FaultBit → Nat
  | .su => 0
  | .so => 1
  | .kr => 2
  | .ar => 3
  | .fr => 4

/-- FAULT with only this bit set. -/
def FaultBit.mask (b : FaultBit) : Byte := 1#8 <<< b.index

/-- `fault(B)`: set the sticky bit B and change nothing else (R10). -/
def State.raise (s : State) (b : FaultBit) : State := { s with fault := s.fault ||| b.mask }

/-! ### Range-checked accesses (R64 to R66) -/

/-- `MemRead(EA, 1)` (R65). -/
def memRead (ea : Nat) (s : State) : Option Byte × State :=
  if ea ≤ 0xFFF then (some (s.peek ea), s) else (none, s.raise .ar)

/-- `MemWrite(EA, 1, v)` (R66). -/
def memWrite (ea : Nat) (b : Byte) (s : State) : State :=
  if ea ≤ 0xFFF then s.poke ea b else s.raise .ar

/-! ### PC and the fetch (30_encoding.md R90, R91) -/

/-- `PC <- (PC + 2) mod 2^16`: the advance before dispatch (R90), and a skip's further 2 (R92). -/
def State.advance (s : State) : State := { s with pc := s.pc + 2 }

/-- A conditional skip (R143 to R148). -/
def skipIf (c : Bool) (s : State) : State := if c then s.advance else s

/-- `FetchWord(PC)`, or none when PC > 0xFFE (R67, R91). -/
def fetchWord (s : State) : Option Word :=
  if s.pc.toNat ≤ 0xFFE then some (wordOfBytes (s.peek s.pc.toNat) (s.peek (s.pc.toNat + 1))) else none

/-- What STEP does when the fetch is out of range: FR, and nothing else (R91). -/
def fetchFault (s : State) : State := s.raise .fr

/-- Store a word big-endian where the next STEP fetches. Where PC is out of the fetch's range, PC is first set to
PROG_BASE (log entry 6). -/
def placeWord (s : State) (w : Word) : State :=
  let s := if s.pc.toNat ≤ 0xFFE then s else s.setPc (BitVec.ofNat 16 Config.progBase)
  (s.poke s.pc.toNat (w.extractLsb' 8 8)).poke (s.pc.toNat + 1) (w.extractLsb' 0 8)

/-! ### The call stack (R26) -/

/-- `Push(v)`: true is OK, false is FULL (SP = STACK_DEPTH). -/
def push (w : Word) (s : State) : Bool × State :=
  if s.sp = s.stackDepth then (false, s.raise .so)
  else (true, { s with stack := s.stack.set s.sp w, sp := s.sp + 1 })

/-- STACK[k], 0 past the end of the array. -/
def State.stackAt (s : State) (k : Nat) : Word := s.stack.getD k 0

/-- `Pop()`: none is EMPTY (SP = 0). -/
def pop (s : State) : Option Word × State :=
  if s.sp = 0 then (none, s.raise .su)
  else (some (s.stackAt (s.sp - 1)), { s with sp := s.sp - 1 })

/-! ### The display (R29, R120) -/

/-- DISP[p]; false past the end of the buffer. -/
def Display.bitAt (d : Display) (p : Nat) : Bool :=
  (d.toList.getD (p / Config.dispW) 0).getLsbD (p % Config.dispW)

/-- `DISP[p] <- DISP[p] ^ 1`; nothing past the end of the buffer. -/
def Display.flip (d : Display) (p : Nat) : Display :=
  if h : p / Config.dispW < Config.dispH then
    d.set (p / Config.dispW) (d[p / Config.dispW] ^^^ BitVec.twoPow Config.dispW (p % Config.dispW)) h
  else d

/-- The index in DISP of pixel (px, py) (R29). -/
def pixelIndex (px py : Nat) : Nat := py * Config.dispW + px

/-- Pixel (px, py) is on. -/
def State.pixel (s : State) (px py : Nat) : Bool := s.disp.bitAt (pixelIndex px py)

/-- Flip DISP[p]. -/
def State.flipDisp (s : State) (p : Nat) : State := { s with disp := s.disp.flip p }

/-- All pixels off (R122). -/
def State.clearDisp (s : State) : State := { s with disp := Vector.replicate Config.dispH 0 }

end Sys2Proof.Machine
end

