-- ==== Sys2Proof/Machine/Operands.lean ====
section
/-! DEFINITION. The operand forms (spec/30_encoding.md R95, spec/20_memory.md R64): registers are read by `State.getV`,
and every immediate is zero-extended. -/

namespace Sys2Proof.Machine

/-- `zext_16(nnn)`, the absolute address of 1nnn, 2nnn, Annn and Bnnn (R95). -/
def addrOperand (nnn : Addr12) : Word := nnn.setWidth 16

/-- The count `n` of Dxyn, 0..15 (R95). -/
def countOperand (n : Nibble) : Nat := n.toNat

/-- A register's byte as a 16-bit value, the addend of Bnnn and Fx1E (R147, R211). -/
def wideOperand (b : Byte) : Word := b.setWidth 16

/-- `EA = I + k`, exact: no wrap at 2^12 or 2^16 (R64). -/
def indexPlus (s : State) (k : Nat) : Nat := s.i.toNat + k

/-- The address of the font glyph for a value: V[x] * 5 + 0x050, the whole byte used (R212, conflict C3). -/
def glyphAddress (b : Byte) : Word := BitVec.ofNat 16 (b.toNat * 5 + Config.fontBase)

/-- The hundreds, tens and ones of a byte (R213). -/
def hundreds (b : Byte) : Byte := BitVec.ofNat 8 (b.toNat / 100)

/-- See `hundreds`. -/
def tens (b : Byte) : Byte := BitVec.ofNat 8 (b.toNat / 10 % 10)

/-- See `hundreds`. -/
def ones (b : Byte) : Byte := BitVec.ofNat 8 (b.toNat % 10)

end Sys2Proof.Machine
end

