-- ==== Sys2Proof/Machine/Flags.lean ====
section
/-! DEFINITION. The flag computations; every flag goes to VF (spec/42_alu.md R169, spec/10_state.md R22). -/

namespace Sys2Proof.Machine

/-- A flag as the byte VF holds. -/
def flagByte (c : Bool) : Byte := if c then 1 else 0

/-- Carry of 8xy4, from the exact sum (R176). -/
def carryFlag (a b : Byte) : Byte := flagByte (decide (a.toNat + b.toNat > 255))

/-- "Not borrow" of a − b: 1 if a > b, strictly (R177, R179). -/
def noBorrowFlag (a b : Byte) : Byte := flagByte (decide (a.toNat > b.toNat))

/-- The bit SHR shifts out (R178). -/
def lowBitFlag (a : Byte) : Byte := a &&& 1

/-- The bit SHL shifts out (R180). -/
def highBitFlag (a : Byte) : Byte := (a >>> 7) &&& 1

/-- `V[0xF] <- f`. -/
def writeFlag (f : Byte) (s : State) : State := s.setV regF f

end Sys2Proof.Machine
end

