-- ==== Sys2Proof/Machine/Alu.lean ====
section
/-! DEFINITION. Register and ALU instructions (spec/42_alu.md). Statements run in order and each reads the state the
earlier ones left (spec/00_scope.md R9): the flag is written first, and SUB, SUBN, SHR and SHL read V again after it. -/

namespace Sys2Proof.Machine

/-- `V[x] <- b`, the end of every instruction here. -/
def toReg (x : RegIdx) (b : Byte) (s : State) : Host.Outcome State Fault Refusal := .next (s.setV x b)

/-- LD Vx, kk (R170). -/
def execLdImm (x : RegIdx) (kk : Byte) (s : State) : Host.Outcome State Fault Refusal := toReg x kk s

/-- ADD Vx, kk: no carry (R171). -/
def execAddImm (x : RegIdx) (kk : Byte) (s : State) : Host.Outcome State Fault Refusal :=
  toReg x (s.getV x + kk) s

/-- LD Vx, Vy (R172). -/
def execLdReg (x y : RegIdx) (s : State) : Host.Outcome State Fault Refusal := toReg x (s.getV y) s

/-- OR Vx, Vy (R173). -/
def execOrReg (x y : RegIdx) (s : State) : Host.Outcome State Fault Refusal :=
  toReg x (s.getV x ||| s.getV y) s

/-- AND Vx, Vy (R174). -/
def execAndReg (x y : RegIdx) (s : State) : Host.Outcome State Fault Refusal :=
  toReg x (s.getV x &&& s.getV y) s

/-- XOR Vx, Vy (R175). -/
def execXorReg (x y : RegIdx) (s : State) : Host.Outcome State Fault Refusal :=
  toReg x (s.getV x ^^^ s.getV y) s

/-- ADD Vx, Vy: the sum is taken before VF is written (R176). -/
def execAddReg (x y : RegIdx) (s : State) : Host.Outcome State Fault Refusal :=
  let sum := s.getV x + s.getV y
  toReg x sum (writeFlag (carryFlag (s.getV x) (s.getV y)) s)

/-- SUB Vx, Vy: re-reads V after the VF write (R177). -/
def execSubReg (x y : RegIdx) (s : State) : Host.Outcome State Fault Refusal :=
  let s1 := writeFlag (noBorrowFlag (s.getV x) (s.getV y)) s
  toReg x (s1.getV x - s1.getV y) s1

/-- SHR Vx: re-reads V after the VF write; Vy is not read (R178). -/
def execShr (x : RegIdx) (s : State) : Host.Outcome State Fault Refusal :=
  let s1 := writeFlag (lowBitFlag (s.getV x)) s
  toReg x (s1.getV x >>> 1) s1

/-- SUBN Vx, Vy: re-reads V after the VF write (R179). -/
def execSubnReg (x y : RegIdx) (s : State) : Host.Outcome State Fault Refusal :=
  let s1 := writeFlag (noBorrowFlag (s.getV y) (s.getV x)) s
  toReg x (s1.getV y - s1.getV x) s1

/-- SHL Vx: re-reads V after the VF write; Vy is not read (R180). -/
def execShl (x : RegIdx) (s : State) : Host.Outcome State Fault Refusal :=
  let s1 := writeFlag (highBitFlag (s.getV x)) s
  toReg x (s1.getV x <<< 1) s1

/-- RND Vx, kk: the STEP's `rnd` AND kk (R181). The byte is used up: the next is a fresh free value (log entry 1). -/
def execRnd (x : RegIdx) (kk : Byte) (s : State) : Host.Outcome State Fault Refusal :=
  toReg x (s.rnd &&& kk) s.freshRnd

end Sys2Proof.Machine
end

