-- ==== Sys2Proof/Machine/Control.lean ====
section
/-! DEFINITION. Control-transfer instructions (spec/41_control_flow.md) and the ignored words (spec/30_encoding.md R99).
Every meaning is given the state with PC already advanced to p + 2 (R90; log entry 13). -/

namespace Sys2Proof.Machine

/-- RET (R140). -/
def execRet (s : State) : Host.Outcome State Fault Refusal :=
  match pop s with
  | (some w, s1) => .next (s1.setPc w)
  | (none, s1) => .next s1

/-- JP nnn (R141). -/
def execJp (nnn : Addr12) (s : State) : Host.Outcome State Fault Refusal := .next (s.setPc (addrOperand nnn))

/-- CALL nnn: pushes the advanced PC (R142). -/
def execCall (nnn : Addr12) (s : State) : Host.Outcome State Fault Refusal :=
  match push s.pc s with
  | (true, s1) => .next (s1.setPc (addrOperand nnn))
  | (false, s1) => .next s1

/-- SE Vx, kk (R143). -/
def execSeImm (x : RegIdx) (kk : Byte) (s : State) : Host.Outcome State Fault Refusal :=
  .next (skipIf (s.getV x == kk) s)

/-- SNE Vx, kk (R144). -/
def execSneImm (x : RegIdx) (kk : Byte) (s : State) : Host.Outcome State Fault Refusal :=
  .next (skipIf (s.getV x != kk) s)

/-- SE Vx, Vy (R145). -/
def execSeReg (x y : RegIdx) (s : State) : Host.Outcome State Fault Refusal :=
  .next (skipIf (s.getV x == s.getV y) s)

/-- SNE Vx, Vy (R146). -/
def execSneReg (x y : RegIdx) (s : State) : Host.Outcome State Fault Refusal :=
  .next (skipIf (s.getV x != s.getV y) s)

/-- JP V0, nnn: not masked to 12 bits (R147). -/
def execJpV0 (nnn : Addr12) (s : State) : Host.Outcome State Fault Refusal :=
  .next (s.setPc (addrOperand nnn + wideOperand (s.getV reg0)))

/-- An ignored word does nothing beyond the PC advance (R99). -/
def ignoreWord (s : State) : Host.Outcome State Fault Refusal := .next s

/-- An ignored word of family 0x0 (R99). -/
def execIgnored0 (s : State) : Host.Outcome State Fault Refusal := ignoreWord s

/-- An ignored word of family 0x8 (R99). -/
def execIgnored8 (s : State) : Host.Outcome State Fault Refusal := ignoreWord s

/-- An ignored word of family 0xE (R99). -/
def execIgnoredE (s : State) : Host.Outcome State Fault Refusal := ignoreWord s

/-- An ignored word of family 0xF (R99). -/
def execIgnoredF (s : State) : Host.Outcome State Fault Refusal := ignoreWord s

end Sys2Proof.Machine
end

