-- ==== Sys2Proof/Machine/Graphics.lean ====
section
/-! DEFINITION. Display instructions and the sprite compositor (spec/40_display.md). -/

namespace Sys2Proof.Machine

/-- CLS (R122). -/
def execCls (s : State) : Host.Outcome State Fault Refusal := .next (s.clearDisp.setRedraw true)

/-- The innermost statement of Dxyn: a set sprite bit inside the screen flips its pixel and reports a collision
(R120, R121, R123). Column c is bit 7 − c of the row. -/
def drawBit (ox oy r : Nat) (row : Byte) (s : State) (c : Nat) : State :=
  if row.getLsbD (7 - c) = true ∧ ox + c < Config.dispW ∧ oy + r < Config.dispH then
    let p := pixelIndex (ox + c) (oy + r)
    (if s.disp.bitAt p then writeFlag 1 s else s).flipDisp p
  else s

/-- One row of the sprite, the most significant bit first. The byte is read for every row, clipped or not, and a row
out of range is 0x00 (R65, R123). -/
def drawRow (ox oy : Nat) (s : State) (r : Nat) : State :=
  match memRead (indexPlus s r) s with
  | (some row, s1) => (List.range 8).foldl (drawBit ox oy r row) s1
  | (none, s1) => (List.range 8).foldl (drawBit ox oy r 0x00) s1

/-- DRW Vx, Vy, n: the origin is read before VF is cleared (R123). -/
def execDrw (x y : RegIdx) (n : Nibble) (s : State) : Host.Outcome State Fault Refusal :=
  let ox := (s.getV x).toNat % Config.dispW
  let oy := (s.getV y).toNat % Config.dispH
  .next (((List.range (countOperand n)).foldl (drawRow ox oy) (writeFlag 0 s)).setRedraw true)

end Sys2Proof.Machine
end

