-- ==== Sys2Proof/Machine/IndexMemory.lean ====
section
/-! DEFINITION. Index-register and memory instructions (spec/43_index_memory.md). I changes only by Annn, Fx1E, Fx29. -/

namespace Sys2Proof.Machine

/-- LD I, nnn (R210): the whole range 0x000 to 0xFFF. R23's aside that Annn writes at most 0x54B is not followed (DEDUCED,
unsafe only if the aside was meant: log entry 16). -/
def execLdI (nnn : Addr12) (s : State) : Host.Outcome State Fault Refusal := .next (s.setI (addrOperand nnn))

/-- ADD I, Vx: modulo 2^16, no flag (R211). -/
def execAddI (x : RegIdx) (s : State) : Host.Outcome State Fault Refusal :=
  .next (s.setI (s.i + wideOperand (s.getV x)))

/-- LD F, Vx (R212). -/
def execLdF (x : RegIdx) (s : State) : Host.Outcome State Fault Refusal :=
  .next (s.setI (glyphAddress (s.getV x)))

/-- LD B, Vx: hundreds, tens, ones at I, I+1, I+2 (R213). -/
def execLdB (x : RegIdx) (s : State) : Host.Outcome State Fault Refusal :=
  let b := s.getV x
  let s1 := memWrite (indexPlus s 0) (hundreds b) s
  let s2 := memWrite (indexPlus s1 1) (tens b) s1
  .next (memWrite (indexPlus s2 2) (ones b) s2)

/-- The first `n` registers, each with its number. -/
def firstRegs (n : Nat) : List RegIdx := (List.finRange 16).take n

/-- `MemWrite(I + k, 1, V[k])`, one pass of Fx55's loop (R214). -/
def storeReg (s : State) (k : RegIdx) : State := memWrite (indexPlus s k.val) (s.getV k) s

/-- LD [I], Vx: V0 to Vx, ascending (R214). -/
def execStoreRegs (x : RegIdx) (s : State) : Host.Outcome State Fault Refusal :=
  .next ((firstRegs (x.val + 1)).foldl storeReg s)

/-- One pass of Fx65's loop: a read out of range leaves the register (R215). -/
def loadReg (s : State) (k : RegIdx) : State :=
  match memRead (indexPlus s k.val) s with
  | (some b, s1) => s1.setV k b
  | (none, s1) => s1

/-- LD Vx, [I]: V0 to Vx, ascending (R215). -/
def execLoadRegs (x : RegIdx) (s : State) : Host.Outcome State Fault Refusal :=
  .next ((firstRegs (x.val + 1)).foldl loadReg s)

end Sys2Proof.Machine
end

