-- ==== Sys2Proof/Machine/KeysTimers.lean ====
section
/-! DEFINITION. Key and timer instructions (spec/44_keys_timers.md). -/

namespace Sys2Proof.Machine

/-- A key test: KR and no skip when the index is above 15; else skip when the key's state is `down` (R240, R241). -/
def keySkip (down : Bool) (k : Byte) (s : State) : State :=
  if 15 < k.toNat then s.raise .kr else skipIf (s.keyDown k.toNat == down) s

/-- SKP Vx (R240). -/
def execSkp (x : RegIdx) (s : State) : Host.Outcome State Fault Refusal := .next (keySkip true (s.getV x) s)

/-- SKNP Vx (R241). -/
def execSknp (x : RegIdx) (s : State) : Host.Outcome State Fault Refusal := .next (keySkip false (s.getV x) s)

/-- LD Vx, DT (R242). -/
def execLdVxDt (x : RegIdx) (s : State) : Host.Outcome State Fault Refusal := .next (s.setV x s.dt)

/-- One pass of Fx0A's scan: a later key that is down overwrites an earlier one (R243, conflict C2). -/
def scanKey (s : State) (found : Option Byte) (k : Nat) : Option Byte :=
  if s.keyDown k then some (BitVec.ofNat 8 k) else found

/-- The key the ascending scan ends with; none when no key is down (R243). -/
def scanKeys (s : State) : Option Byte := (List.range 16).foldl (scanKey s) none

/-- LD Vx, K: with no key down V[x] is kept and PC goes back to p (R243). -/
def execLdVxK (x : RegIdx) (s : State) : Host.Outcome State Fault Refusal :=
  match scanKeys s with
  | some b => .next (s.setV x b)
  | none => .next (s.setPc (s.pc - 2))

/-- LD DT, Vx (R244). -/
def execLdDtVx (x : RegIdx) (s : State) : Host.Outcome State Fault Refusal := .next (s.setDt (s.getV x))

/-- LD ST, Vx (R245). -/
def execLdStVx (x : RegIdx) (s : State) : Host.Outcome State Fault Refusal := .next (s.setSt (s.getV x))

end Sys2Proof.Machine
end

