-- ==== Sys2Proof/Machine/Step.lean ====
section
/-! DEFINITION. STEP (spec/30_encoding.md R90): fetch, advance PC, decode, execute. -/

namespace Sys2Proof.Machine

/-- One STEP, its `rnd` input being `s.rnd`. Every step ends in a next state (R270). -/
def step (s : State) : Host.Outcome State Fault Refusal :=
  match fetchWord s with
  | none => .next (fetchFault s)
  | some w => exec (decodeWord w) s.advance

/-- The state whose next STEP fetches and runs the host's word (log entry 6). -/
def State.withFetchWord (s : State) (nbits w : Nat) : State := placeWord s (tableWord nbits w)

end Sys2Proof.Machine
end

