-- ==== Sys2Proof/Machine/Transactions.lean ====
section
/-! DEFINITION. The host's transactions (spec/10_state.md R37, spec/60_exceptions.md, spec/70_reset_and_hazards.md). -/

namespace Sys2Proof.Machine

/-- The seven transactions of R37, with their inputs. -/
inductive Transaction where
  | reset
  | load (offset : Nat) (b : Byte)
  | setKeys (ks : BitVec 16)
  | step (rnd : Byte)
  | tick
  | ackRedraw
  | read
  deriving DecidableEq, Repr

/-- What a transaction returns to the host (R37). -/
inductive Output where
  | silent
  | toneEdge (edge : Bool)
  | snapshot (s : State)
  deriving DecidableEq, Repr

/-- RESET (R320) of a block with this one's parameters. The `rnd` input is the host's, no state of the block, so it is not
reset (log entry 3). -/
def doReset (s : State) : State := { State.resetWith s.params with rnd := s.rnd, draws := s.draws }

/-- LOAD(offset, byte): no effect at an offset of 3584 or above (R283). -/
def doLoad (offset : Nat) (b : Byte) (s : State) : State :=
  if offset < Config.progMax then s.poke (Config.progBase + offset) b else s

/-- A timer's count toward 0 (R278). -/
def countDown (b : Byte) : Byte := if b = 0 then 0 else b - 1

/-- TICK, with the tone edge it returns (R278, R279). -/
def doTick (s : State) : Bool × State :=
  (s.st == 1, (s.setDt (countDown s.dt)).setSt (countDown s.st))

/-- ACK_REDRAW (R281). -/
def doAckRedraw (s : State) : State := s.setRedraw false

/-- READ's snapshot: every item of R20, the model's own fields blanked (R284). -/
def snapshotOf (s : State) : State := { s with rnd := 0, draws := 0 }

/-- STEP(rnd): one step with the host's byte presented (R37, R90). -/
def doStep (rnd : Byte) (s : State) : Host.Outcome State Fault Refusal := step (s.presentRnd rnd)

/-- One transaction: the next state with what the host is told (R36, R37). -/
def transact (t : Transaction) (s : State) : Host.Outcome (State × Output) Fault Refusal :=
  match t with
  | .reset => .next (doReset s, .silent)
  | .load offset b => .next (doLoad offset b s, .silent)
  | .setKeys ks => .next (s.setKeys ks, .silent)
  | .step rnd =>
    match doStep rnd s with
    | .next s1 => .next (s1, .silent)
    | .fault r => .fault r
    | .refused r => .refused r
  | .tick => .next ((doTick s).2, .toneEdge (doTick s).1)
  | .ackRedraw => .next (doAckRedraw s, .silent)
  | .read => .next (s, .snapshot (snapshotOf s))

/-- A host schedule, one transaction after another (R36, R74), with all it was told. -/
def runTransactions : List Transaction → State → Host.Outcome (State × List Output) Fault Refusal
  | [], s => .next (s, [])
  | t :: rest, s =>
    match transact t s with
    | .next (s1, o) =>
      match runTransactions rest s1 with
      | .next (s2, os) => .next (s2, o :: os)
      | .fault r => .fault r
      | .refused r => .refused r
    | .fault r => .fault r
    | .refused r => .refused r

/-- One period of the host: the keys, STEPS_PER_TICK STEPs, the j-th with `rnd j`, then one TICK (R5, R280, R282). -/
def tickPeriod (stepsPerTick : Nat) (keys : BitVec 16) (rnd : Nat → Byte) : List Transaction :=
  .setKeys keys :: ((List.range stepsPerTick).map fun j => .step (rnd j)) ++ [.tick]

/-- A host schedule at the fixed ratio STEPS_PER_TICK (R5 OPEN, R280, D21), the first `periods` periods of it. The ratio
constrains the host and not the block: `runTransactions` takes any schedule (DESIGN CHOICE: log entry 11). -/
def hostSchedule (stepsPerTick : Nat) (keys : Nat → BitVec 16) (rnd : Nat → Nat → Byte) : Nat → List Transaction
  | 0 => []
  | p + 1 => hostSchedule stepsPerTick keys rnd p ++ tickPeriod stepsPerTick (keys p) (rnd p)

/-- The LOADs of a program image, b[0] first (R283). -/
def loadImage : List Byte → Nat → List Transaction
  | [], _ => []
  | b :: rest, offset => .load offset b :: loadImage rest (offset + 1)

end Sys2Proof.Machine
end

