-- ==== Sys2Proof/Safety.lean ====
section
/-! DEFINITION. The terms the statements use: frames, the access matrix, the invariant, the opcode map as data, the PC law,
the fault conditions, the sprite as a picture, and what a program can see. -/

namespace Sys2Proof.Machine

/-! ### Frames -/

/-- What an instruction may change. Everything not named here is unchanged; KEYS is never in the list, since no
instruction writes it (R31), nor are the parameters FONT and STACK_DEPTH. -/
structure Writes where
  /-- V registers. -/
  regs : RegIdx → Prop := fun _ => False
  /-- Bytes of MEM. -/
  bytes : Nat → Prop := fun _ => False
  /-- Bits of FAULT. -/
  faults : FaultBit → Prop := fun _ => False
  /-- I. -/
  index : Bool := false
  /-- PC, beyond the advance that comes before the meaning. -/
  pc : Bool := false
  /-- STACK and SP. -/
  stack : Bool := false
  /-- DT. -/
  delay : Bool := false
  /-- ST. -/
  sound : Bool := false
  /-- DISP and REDRAW. -/
  display : Bool := false
  /-- The model's own `rnd` and `draws`. -/
  random : Bool := false

/-- `t` differs from `s` at most in what `w` names. Memory is compared byte by byte, FAULT bit by bit. -/
structure Frame (w : Writes) (s t : State) : Prop where
  regs : ∀ r, ¬ w.regs r → t.getV r = s.getV r
  bytes : ∀ a, ¬ w.bytes a → t.peek a = s.peek a
  faults : ∀ n, (∀ b : FaultBit, w.faults b → b.index ≠ n) → t.fault.getLsbD n = s.fault.getLsbD n
  index : w.index = false → t.i = s.i
  pc : w.pc = false → t.pc = s.pc
  stack : w.stack = false → t.stack = s.stack ∧ t.sp = s.sp
  delay : w.delay = false → t.dt = s.dt
  sound : w.sound = false → t.st = s.st
  display : w.display = false → t.disp = s.disp ∧ t.redraw = s.redraw
  keys : t.keys = s.keys
  params : t.params = s.params
  random : w.random = false → t.rnd = s.rnd ∧ t.draws = s.draws

/-- The addresses I, I+1, … I+last that exist: where Fx33 (last 2) and Fx55 (last x) store (R64, R66). -/
def storedBytes (s : State) (last : Nat) : Nat → Prop :=
  fun a => ∃ k, k ≤ last ∧ a = indexPlus s k ∧ a ≤ 0xFFF

/-- The write columns of the access matrix R35, with the FAULT bits of R271 (DEDUCED, safe: log entry 15). -/
def accessMatrix (i : Instr) (s : State) : Writes :=
  match i with
  | .cls => { display := true }
  | .ret => { pc := true, stack := true, faults := fun b => b = .su }
  | .jp _ | .jpV0 _ => { pc := true }
  | .call _ => { pc := true, stack := true, faults := fun b => b = .so }
  | .seImm _ _ | .sneImm _ _ | .seReg _ _ | .sneReg _ _ => { pc := true }
  | .ldImm x _ | .addImm x _ => { regs := fun r => r = x }
  | .ldReg x _ | .orReg x _ | .andReg x _ | .xorReg x _ => { regs := fun r => r = x }
  | .addReg x _ | .subReg x _ | .subnReg x _ | .shr x | .shl x => { regs := fun r => r = x ∨ r = regF }
  | .ldI _ | .addI _ | .ldF _ => { index := true }
  | .rnd x _ => { regs := fun r => r = x, random := true }
  | .drw _ _ _ => { regs := fun r => r = regF, display := true, faults := fun b => b = .ar }
  | .skp _ | .sknp _ => { pc := true, faults := fun b => b = .kr }
  | .ldVxDt x => { regs := fun r => r = x }
  | .ldVxK x => { regs := fun r => r = x, pc := true }
  | .ldDtVx _ => { delay := true }
  | .ldStVx _ => { sound := true }
  | .ldB _ => { bytes := storedBytes s 2, faults := fun b => b = .ar }
  | .storeRegs x => { bytes := storedBytes s x.val, faults := fun b => b = .ar }
  | .loadRegs x => { regs := fun r => r.val ≤ x.val, faults := fun b => b = .ar }
  | .ignored0 _ | .ignored8 _ | .ignoredE _ | .ignoredF _ => {}

/-! ### The invariant -/

/-- What every run keeps: memory in canonical form, which is the model's own (log entry 7); FAULT bits 7:5 read as 0
(R32); PC never above 0x10FE, so it never wraps (R24); SP at most STACK_DEPTH (R25); every saved PC in use at most 0x1000,
the advanced PC of the last fetchable word (R91, R142). -/
abbrev State.Inv (s : State) : Prop :=
  s.mem.wf s.font ∧ s.fault &&& 0xE0#8 = 0#8 ∧ s.pc.toNat ≤ 0x10FE ∧ s.sp ≤ s.stackDepth ∧
    ∀ k, k < s.sp → (s.stackAt k).toNat ≤ 0x1000

/-- The run has met no condition the source leaves undefined (R10, R272). -/
abbrev State.noFault (s : State) : Prop := s.fault = 0

/-! ### The opcode map as data (R97) -/

/-- Every word that matches selects this instruction. -/
def Selects (mask pattern : Word) (i : Word → Instr) : Prop :=
  ∀ w, w &&& mask = pattern → decodeWord w = i w

/-- The mask and the match of an instruction's row of R97; none for an ignored word. -/
def opcodeRow : Instr → Option (Word × Word)
  | .cls => some (0xF0FF, 0x00E0)
  | .ret => some (0xF0FF, 0x00EE)
  | .jp _ => some (0xF000, 0x1000)
  | .call _ => some (0xF000, 0x2000)
  | .seImm _ _ => some (0xF000, 0x3000)
  | .sneImm _ _ => some (0xF000, 0x4000)
  | .seReg _ _ => some (0xF000, 0x5000)
  | .ldImm _ _ => some (0xF000, 0x6000)
  | .addImm _ _ => some (0xF000, 0x7000)
  | .ldReg _ _ => some (0xF00F, 0x8000)
  | .orReg _ _ => some (0xF00F, 0x8001)
  | .andReg _ _ => some (0xF00F, 0x8002)
  | .xorReg _ _ => some (0xF00F, 0x8003)
  | .addReg _ _ => some (0xF00F, 0x8004)
  | .subReg _ _ => some (0xF00F, 0x8005)
  | .shr _ => some (0xF00F, 0x8006)
  | .subnReg _ _ => some (0xF00F, 0x8007)
  | .shl _ => some (0xF00F, 0x800E)
  | .sneReg _ _ => some (0xF000, 0x9000)
  | .ldI _ => some (0xF000, 0xA000)
  | .jpV0 _ => some (0xF000, 0xB000)
  | .rnd _ _ => some (0xF000, 0xC000)
  | .drw _ _ _ => some (0xF000, 0xD000)
  | .skp _ => some (0xF0FF, 0xE09E)
  | .sknp _ => some (0xF0FF, 0xE0A1)
  | .ldVxDt _ => some (0xF0FF, 0xF007)
  | .ldVxK _ => some (0xF0FF, 0xF00A)
  | .ldDtVx _ => some (0xF0FF, 0xF015)
  | .ldStVx _ => some (0xF0FF, 0xF018)
  | .addI _ => some (0xF0FF, 0xF01E)
  | .ldF _ => some (0xF0FF, 0xF029)
  | .ldB _ => some (0xF0FF, 0xF033)
  | .storeRegs _ => some (0xF0FF, 0xF055)
  | .loadRegs _ => some (0xF0FF, 0xF065)
  | .ignored0 _ | .ignored8 _ | .ignoredE _ | .ignoredF _ => none

/-- One instruction of each row of R97, in its order. -/
def rowInstrs : List Instr :=
  [.cls, .ret, .jp 0, .call 0, .seImm 0 0, .sneImm 0 0, .seReg 0 0, .ldImm 0 0, .addImm 0 0] ++
  [.ldReg 0 0, .orReg 0 0, .andReg 0 0, .xorReg 0 0, .addReg 0 0, .subReg 0 0, .shr 0, .subnReg 0 0, .shl 0] ++
  [.sneReg 0 0, .ldI 0, .jpV0 0, .rnd 0 0, .drw 0 0 0, .skp 0, .sknp 0] ++
  [.ldVxDt 0, .ldVxK 0, .ldDtVx 0, .ldStVx 0, .addI 0, .ldF 0, .ldB 0, .storeRegs 0, .loadRegs 0]

/-- The 34 rows of R97: mask and match. -/
def opcodeRows : List (Word × Word) := rowInstrs.filterMap opcodeRow

/-- The bits of a word that an instruction's encoding gives a meaning: the rest are don't-care (R98). -/
def significantBits : Instr → Word
  | .cls | .ret => 0xF0FF
  | .seReg _ _ | .sneReg _ _ => 0xFFF0
  | .shr _ | .shl _ => 0xFF0F
  | .jp _ | .call _ | .seImm _ _ | .sneImm _ _ | .ldImm _ _ | .addImm _ _ | .ldReg _ _ | .orReg _ _ | .andReg _ _
  | .xorReg _ _ | .addReg _ _ | .subReg _ _ | .subnReg _ _ | .ldI _ | .jpV0 _ | .rnd _ _ | .drw _ _ _ | .skp _
  | .sknp _ | .ldVxDt _ | .ldVxK _ | .ldDtVx _ | .ldStVx _ | .addI _ | .ldF _ | .ldB _ | .storeRegs _ | .loadRegs _
  | .ignored0 _ | .ignored8 _ | .ignoredE _ | .ignoredF _ => 0xFFFF

/-! ### The PC law (R92) -/

/-- PC after the instruction `i` at address `p`, `s` being the state before the STEP: the table of R92. -/
def pcLaw (i : Instr) (p : Word) (s : State) : Word :=
  match i with
  | .seImm x kk => if s.getV x = kk then p + 4 else p + 2
  | .sneImm x kk => if s.getV x ≠ kk then p + 4 else p + 2
  | .seReg x y => if s.getV x = s.getV y then p + 4 else p + 2
  | .sneReg x y => if s.getV x ≠ s.getV y then p + 4 else p + 2
  | .skp x => if (s.getV x).toNat ≤ 15 ∧ s.keys.getLsbD (s.getV x).toNat = true then p + 4 else p + 2
  | .sknp x => if (s.getV x).toNat ≤ 15 ∧ s.keys.getLsbD (s.getV x).toNat = false then p + 4 else p + 2
  | .jp nnn => BitVec.ofNat 16 nnn.toNat
  | .call nnn => if s.sp = s.stackDepth then p + 2 else BitVec.ofNat 16 nnn.toNat
  | .ret => if s.sp = 0 then p + 2 else s.stackAt (s.sp - 1)
  | .jpV0 nnn => BitVec.ofNat 16 (nnn.toNat + (s.getV reg0).toNat)
  | .ldVxK _ => if s.keys = 0 then p else p + 2
  | .cls | .ldImm _ _ | .addImm _ _ | .ldReg _ _ | .orReg _ _ | .andReg _ _ | .xorReg _ _ | .addReg _ _ | .subReg _ _
  | .shr _ | .subnReg _ _ | .shl _ | .ldI _ | .rnd _ _ | .drw _ _ _ | .ldVxDt _ | .ldDtVx _ | .ldStVx _ | .addI _
  | .ldF _ | .ldB _ | .storeRegs _ | .loadRegs _ | .ignored0 _ | .ignored8 _ | .ignoredE _ | .ignoredF _ => p + 2

/-! ### The fault conditions (R271) -/

/-- The condition column of R271, FR apart (the fetch's, R91). -/
def raises (i : Instr) (s : State) (b : FaultBit) : Prop :=
  match i with
  | .ret => b = .su ∧ s.sp = 0
  | .call _ => b = .so ∧ s.sp = s.stackDepth
  | .skp x | .sknp x => b = .kr ∧ 15 < (s.getV x).toNat
  | .drw _ _ n => b = .ar ∧ ∃ k, k < n.toNat ∧ 0xFFF < indexPlus s k
  | .ldB _ => b = .ar ∧ ∃ k, k ≤ 2 ∧ 0xFFF < indexPlus s k
  | .storeRegs x | .loadRegs x => b = .ar ∧ ∃ k, k ≤ x.val ∧ 0xFFF < indexPlus s k
  | .cls | .jp _ | .seImm _ _ | .sneImm _ _ | .seReg _ _ | .ldImm _ _ | .addImm _ _ | .ldReg _ _ | .orReg _ _
  | .andReg _ _ | .xorReg _ _ | .addReg _ _ | .subReg _ _ | .shr _ | .subnReg _ _ | .shl _ | .sneReg _ _ | .ldI _
  | .jpV0 _ | .rnd _ _ | .ldVxDt _ | .ldVxK _ | .ldDtVx _ | .ldStVx _ | .addI _ | .ldF _
  | .ignored0 _ | .ignored8 _ | .ignoredE _ | .ignoredF _ => False

/-! ### The sprite as a picture (R120, R121, R123) -/

/-- Row r of the sprite: the byte at I + r, 0x00 out of range (R65). -/
def spriteRow (s : State) (r : Nat) : Byte :=
  if indexPlus s r ≤ 0xFFF then s.peek (indexPlus s r) else 0x00

/-- Pixel (px, py) lies under a set bit of the n-row sprite whose origin is (ox, oy), not wrapped. -/
def spriteCovers (s : State) (n ox oy px py : Nat) : Prop :=
  oy ≤ py ∧ py < oy + n ∧ ox ≤ px ∧ px < ox + 8 ∧ (spriteRow s (py - oy)).getLsbD (7 - (px - ox)) = true

/-! ### What a program can see (R39) -/

/-- `t` looks like `s` to the program: they agree on all but ST, REDRAW, FAULT and the stale stack entries, none of
which any instruction reads (R25, R39). -/
structure SameView (s t : State) : Prop where
  mem : ∀ a, t.peek a = s.peek a
  v : t.v = s.v
  i : t.i = s.i
  pc : t.pc = s.pc
  sp : t.sp = s.sp
  stack : ∀ k, k < s.sp → t.stackAt k = s.stackAt k
  params : t.params = s.params
  dt : t.dt = s.dt
  disp : t.disp = s.disp
  keys : t.keys = s.keys
  rnd : t.rnd = s.rnd
  draws : t.draws = s.draws

/-! ### Runs -/

/-- The instruction of the STEP at `s` stores to address `a`. -/
def stepStores (s : State) (a : Nat) : Prop :=
  match fetchWord s with
  | some w => (accessMatrix (decodeWord w) s).bytes a
  | none => False

/-- None of the next n STEPs stores to an address in P. -/
def stepsAvoid (P : Nat → Prop) : Nat → State → Prop
  | 0, _ => True
  | n + 1, s => (∀ a, P a → ¬ stepStores s a) ∧ ∀ t, step s = .next t → stepsAvoid P n t

/-- The transaction is a STEP. -/
def Transaction.isStep : Transaction → Bool
  | .step _ => true
  | .reset | .load _ _ | .setKeys _ | .tick | .ackRedraw | .read => false

/-- The transaction is a TICK. -/
def Transaction.isTick : Transaction → Bool
  | .tick => true
  | .reset | .load _ _ | .setKeys _ | .step _ | .ackRedraw | .read => false

/-- The output is a TICK's. -/
def Output.isToneEdge : Output → Bool
  | .toneEdge _ => true
  | .silent | .snapshot _ => false

end Sys2Proof.Machine
end

