-- ==== Sys2Proof/Certificates/Slice0/Obligations.lean ====
section
/-! DEFINITION. The statements for the provers. Every meaning is given the state with PC already advanced to p + 2, so
`s.pc` in a statement about `exec` is p + 2 (spec/30_encoding.md R90; log entry 13). Every statement about an
instruction's result is also its completion statement: `exec` answers a next state, for every state and operands.
"D<n>" after a rule names the spec's own decision (spec/92_eei_decisions.md) that the rule rests on; the opcode numbers
rest on D17, the don't-care bits on D18 (log entry 12). -/

open Sys2Proof Sys2Proof.Machine

/-! ### Encoding -/

/-- R94: the position and width of every field, as numbers. -/
def Obligations.WordFieldsAreTheBitsR94Names : Prop :=
  ∀ w : Word,
    (fieldFamily w).toNat = w.toNat / 4096 ∧ (fieldX w).val = w.toNat / 256 % 16 ∧
    (fieldY w).val = w.toNat / 16 % 16 ∧ (fieldNnn w).toNat = w.toNat % 4096 ∧
    (fieldKk w).toNat = w.toNat % 256 ∧ (fieldN w).toNat = w.toNat % 16

/-- R93: every instruction is two bytes, big-endian, and the decoder always consumes two. -/
def Obligations.DecoderConsumesTwoBigEndianBytes : Prop :=
  (∀ (hi lo : Byte) (rest : List Byte), ∃ w : Word, w.toNat = hi.toNat * 256 + lo.toNat ∧
    decode (hi :: lo :: rest) = .ok (decodeWord w, rest)) ∧
  decode [] = .error .truncated ∧ ∀ b : Byte, decode [b] = .error .truncated

/-- Words written out from R97's patterns decode to the instructions they stand for; among them the examples R102 and
R96 print and the ignored words R98 prints. -/
def Obligations.WordsWrittenFromTheOpcodeMapDecode : Prop :=
  decodeWord 0xD125 = .drw 1 2 5 ∧ decodeWord 0xF233 = .ldB 2 ∧ decodeWord 0x01E0 = .cls ∧
  decodeWord 0x00EE = .ret ∧ decodeWord 0x5121 = .seReg 1 2 ∧ decodeWord 0x6A42 = .ldImm 10 0x42 ∧
  decodeWord 0x801E = .shl 0 ∧ decodeWord 0xBFFF = .jpV0 0xFFF ∧ decodeWord 0xE39E = .skp 3 ∧
  decodeWord 0x00F0 = .ignored0 0x0F0 ∧ decodeWord 0xE19F = .ignoredE 0x19F

/-- R101, which the spec derives, with the masks and matches of R97: a word matches a row exactly when that row is the
row of the instruction it decodes to. So at most one row matches, and none when it decodes to an ignored word. -/
def Obligations.EveryWordSelectsExactlyItsRow : Prop :=
  ∀ (w : Word) (row : Word × Word), row ∈ opcodeRows →
    (w &&& row.1 = row.2 ↔ opcodeRow (decodeWord w) = some row)

/-- R99: which words are ignored, and that such a word does nothing beyond the advance. -/
def Obligations.IgnoredWordsDoNothing : Prop :=
  (∀ w : Word, w.toNat / 4096 = 0x0 → w.toNat % 256 ∉ [0xE0, 0xEE] → decodeWord w = .ignored0 (fieldNnn w)) ∧
  (∀ w : Word, w.toNat / 4096 = 0x8 → w.toNat % 16 ∈ [0x8, 0x9, 0xA, 0xB, 0xC, 0xD, 0xF] →
    decodeWord w = .ignored8 (fieldNnn w)) ∧
  (∀ w : Word, w.toNat / 4096 = 0xE → w.toNat % 256 ∉ [0x9E, 0xA1] → decodeWord w = .ignoredE (fieldNnn w)) ∧
  (∀ w : Word, w.toNat / 4096 = 0xF → w.toNat % 256 ∉ [0x07, 0x0A, 0x15, 0x18, 0x1E, 0x29, 0x33, 0x55, 0x65] →
    decodeWord w = .ignoredF (fieldNnn w)) ∧
  ∀ (low : Addr12) (s : State),
    exec (.ignored0 low) s = .next s ∧ exec (.ignored8 low) s = .next s ∧
    exec (.ignoredE low) s = .next s ∧ exec (.ignoredF low) s = .next s

/-- Decode and encode agree on every well-formed instruction, every operand at every value. -/
def Obligations.DecodeOfEncodeIsTheInstruction : Prop :=
  ∀ i : Instr, i.wf = true → decodeWord (encode i) = i

/-- Every word decodes to a well-formed instruction, and encoding that gives the word back with its don't-care bits
(R98) cleared. That `encode` puts 0 there (as R102's canonical encodings do) and that an ignored word keeps its bits 11:0
is the model's choice (DESIGN CHOICE: log entry 10). -/
def Obligations.EncodeOfDecodeClearsOnlyDontCareBits : Prop :=
  ∀ w : Word, (decodeWord w).wf = true ∧ encode (decodeWord w) = w &&& significantBits (decodeWord w)

/-! ### STEP -/

/-- R90 for the model's own step: with PC ≤ 0xFFE it runs the instruction the two bytes at PC decode to, on the state
with PC advanced by 2; and STEP(rnd) is that step with rnd presented. -/
def Obligations.StepRunsTheDecodedInstruction : Prop :=
  (∀ (s : State) (i : Instr), s.pc.toNat ≤ 0xFFE → i.wf = true →
    decode [s.peek s.pc.toNat, s.peek (s.pc.toNat + 1)] = .ok (i, []) →
    step s = exec i { s with pc := s.pc + 2 }) ∧
  ∀ (s : State) (r : Byte) (t : State), step { s with rnd := r } = .next t →
    transact (.step r) s = .next (t, .silent)

/-- R67: the fetched word is (MEM[PC] << 8) | MEM[PC+1], and there is none when PC > 0xFFE. No alignment (R70). -/
def Obligations.FetchReadsTwoBytesBigEndian : Prop :=
  ∀ s : State,
    (s.pc.toNat ≤ 0xFFE → ∃ w, fetchWord s = some w ∧
      w.toNat = (s.peek s.pc.toNat).toNat * 256 + (s.peek (s.pc.toNat + 1)).toNat) ∧
    (0xFFE < s.pc.toNat → fetchWord s = none)

/-- R91: a fetch out of range sets FR and changes nothing else, and every later STEP repeats it (D8). -/
def Obligations.FetchOutOfRangeIsStuckWithFr : Prop :=
  ∀ (n : Nat) (s : State), 0xFFE < s.pc.toNat →
    Host.Core.run Sys2Proof.core (n + 1) s = .next { s with fault := s.fault ||| 0x10#8 }

/-- R90: rnd is used only by Cxkk. Every other instruction does the same whatever byte the host presents. -/
def Obligations.OnlyRndReadsTheRandomInput : Prop :=
  ∀ (i : Instr) (s t : State) (r : Byte), (∀ x kk, i ≠ .rnd x kk) → exec i s = .next t →
    exec i { s with rnd := r } = .next { t with rnd := r }

/-- R270: nothing stops the block. Every schedule of transactions completes from every state. -/
def Obligations.EveryScheduleCompletes : Prop :=
  ∀ (trs : List Transaction) (s : State), ∃ t os, runTransactions trs s = .next (t, os) ∧ os.length = trs.length

/-- R92, which the spec derives: PC after a STEP, for every instruction; and unchanged after a fetch fault. -/
def Obligations.PcFollowsTheUpdateLaw : Prop :=
  ∀ s t : State, step s = .next t →
    (s.pc.toNat ≤ 0xFFE →
      t.pc = pcLaw (decodeWord (s.peek s.pc.toNat ++ s.peek (s.pc.toNat + 1))) s.pc s) ∧
    (0xFFE < s.pc.toNat → t.pc = s.pc)

/-! ### Display -/

/-- R122: all pixels off, REDRAW set. -/
def Obligations.ClsClearsTheScreen : Prop :=
  Selects 0xF0FF 0x00E0 (fun _ => .cls) ∧
  ∀ s : State, ∃ t, exec .cls s = .next t ∧ (∀ p, p < 2048 → t.disp.bitAt p = false) ∧ t.redraw = true ∧
    Frame { display := true } s t

/-- R123 with R120 and R121: the origin wraps, the sprite is clipped and XORed, VF is the collision, REDRAW is set, AR
is set when a row is out of range, and nothing else changes. -/
def Obligations.DrwXorsTheClippedSprite : Prop :=
  Selects 0xF000 0xD000 (fun w => .drw (fieldX w) (fieldY w) (fieldN w)) ∧
  ∀ (x y : RegIdx) (n : Nibble) (s : State), ∃ t, exec (.drw x y n) s = .next t ∧
    (∀ px py, px < 64 → py < 32 → (t.pixel px py = true ↔
      ((s.pixel px py = true ∧
          ¬ spriteCovers s n.toNat ((s.getV x).toNat % 64) ((s.getV y).toNat % 32) px py) ∨
        (s.pixel px py = false ∧
          spriteCovers s n.toNat ((s.getV x).toNat % 64) ((s.getV y).toNat % 32) px py)))) ∧
    ((∃ px py, px < 64 ∧ py < 32 ∧ s.pixel px py = true ∧
        spriteCovers s n.toNat ((s.getV x).toNat % 64) ((s.getV y).toNat % 32) px py) →
      t.getV regF = 1) ∧
    (¬ (∃ px py, px < 64 ∧ py < 32 ∧ s.pixel px py = true ∧
        spriteCovers s n.toNat ((s.getV x).toNat % 64) ((s.getV y).toNat % 32) px py) →
      t.getV regF = 0) ∧
    t.redraw = true ∧
    t.fault = (if n.toNat = 0 ∨ indexPlus s (n.toNat - 1) ≤ 0xFFF then s.fault else s.fault ||| 0x08#8) ∧
    Frame { regs := fun r => r = regF, display := true, faults := fun b => b = .ar } s t

/-- The corner case of drawing twice, from R123's pseudocode: DISP is restored, and VF is 1 after the second draw exactly
when a visible set bit of the sprite lies on a pixel that was off before the first. (R123's own sentence has VF = 1
whenever the sprite has a visible set bit; on a screen that already showed every such pixel its pseudocode gives VF = 0,
and the model follows the pseudocode: log entry 14.) The origin is the same when it is not taken from VF. -/
def Obligations.DrawingTwiceRestoresTheScreen : Prop :=
  ∀ (x y : RegIdx) (n : Nibble) (s : State), x ≠ regF → y ≠ regF →
    ∃ t u, exec (.drw x y n) s = .next t ∧ exec (.drw x y n) t = .next u ∧
      (∀ px py, px < 64 → py < 32 → u.pixel px py = s.pixel px py) ∧
      ((∃ px py, px < 64 ∧ py < 32 ∧ s.pixel px py = false ∧
          spriteCovers s n.toNat ((s.getV x).toNat % 64) ((s.getV y).toNat % 32) px py) ↔
        u.getV regF = 1)

/-! ### Control transfer -/

/-- R140; the empty-stack no-op is D5. SP is at most STACK_DEPTH in every state that meets the invariant. -/
def Obligations.RetPopsOrSetsSu : Prop :=
  Selects 0xF0FF 0x00EE (fun _ => .ret) ∧
  ∀ s : State, ∃ t, exec .ret s = .next t ∧ t.stack = s.stack ∧
    (s.sp = 0 → t.pc = s.pc ∧ t.sp = s.sp ∧ t.fault = s.fault ||| 0x01#8) ∧
    (0 < s.sp → t.pc = s.stackAt (s.sp - 1) ∧ t.sp = s.sp - 1 ∧ t.fault = s.fault) ∧
    (0 < s.sp → s.sp ≤ s.stackDepth → s.stack[s.sp - 1]? = some t.pc) ∧
    Frame { pc := true, stack := true, faults := fun b => b = .su } s t

/-- R141: PC <- zext_16(nnn). -/
def Obligations.JpSetsPc : Prop :=
  Selects 0xF000 0x1000 (fun w => .jp (fieldNnn w)) ∧
  ∀ (nnn : Addr12) (s : State), ∃ t, exec (.jp nnn) s = .next t ∧ t.pc.toNat = nnn.toNat ∧ Frame { pc := true } s t

/-- R142; the full-stack no-op is D4. For every STACK_DEPTH. -/
def Obligations.CallPushesOrSetsSo : Prop :=
  Selects 0xF000 0x2000 (fun w => .call (fieldNnn w)) ∧
  ∀ (nnn : Addr12) (s : State), ∃ t, exec (.call nnn) s = .next t ∧
    (s.sp = s.stackDepth → t.pc = s.pc ∧ t.stack = s.stack ∧ t.sp = s.sp ∧ t.fault = s.fault ||| 0x02#8) ∧
    (s.sp < s.stackDepth → t.pc.toNat = nnn.toNat ∧ t.sp = s.sp + 1 ∧ t.stack[s.sp]? = some s.pc ∧
      (∀ k, k ≠ s.sp → t.stack[k]? = s.stack[k]?) ∧ t.fault = s.fault) ∧
    Frame { pc := true, stack := true, faults := fun b => b = .so } s t

/-- R140 and R142: a CALL with room on the stack, then a RET, comes back to the address after the CALL, with the stack
as deep as before. -/
def Obligations.CallThenRetComesBack : Prop :=
  ∀ (nnn : Addr12) (s : State) (p : Word), s.sp < s.stackDepth →
    ∃ t u, exec (.call nnn) s = .next t ∧ exec .ret { t with pc := p } = .next u ∧
      u.pc = s.pc ∧ u.sp = s.sp ∧ u.fault = s.fault

/-- R143 and R144: the skip adds a further 2. -/
def Obligations.SkipsOnImmediate : Prop :=
  Selects 0xF000 0x3000 (fun w => .seImm (fieldX w) (fieldKk w)) ∧
  Selects 0xF000 0x4000 (fun w => .sneImm (fieldX w) (fieldKk w)) ∧
  ∀ (x : RegIdx) (kk : Byte) (s : State),
    (∃ t, exec (.seImm x kk) s = .next t ∧ t.pc = (if s.getV x = kk then s.pc + 2 else s.pc) ∧
      Frame { pc := true } s t) ∧
    (∃ t, exec (.sneImm x kk) s = .next t ∧ t.pc = (if s.getV x = kk then s.pc else s.pc + 2) ∧
      Frame { pc := true } s t)

/-- R145 and R146: bits 3:0 are don't-care (D18). -/
def Obligations.SkipsOnRegisters : Prop :=
  Selects 0xF000 0x5000 (fun w => .seReg (fieldX w) (fieldY w)) ∧
  Selects 0xF000 0x9000 (fun w => .sneReg (fieldX w) (fieldY w)) ∧
  ∀ (x y : RegIdx) (s : State),
    (∃ t, exec (.seReg x y) s = .next t ∧ t.pc = (if s.getV x = s.getV y then s.pc + 2 else s.pc) ∧
      Frame { pc := true } s t) ∧
    (∃ t, exec (.sneReg x y) s = .next t ∧ t.pc = (if s.getV x = s.getV y then s.pc else s.pc + 2) ∧
      Frame { pc := true } s t)

/-- R147: the offset is V0, and the sum is not masked (D23). -/
def Obligations.JpV0AddsV0Unmasked : Prop :=
  Selects 0xF000 0xB000 (fun w => .jpV0 (fieldNnn w)) ∧
  ∀ (nnn : Addr12) (s : State), ∃ t, exec (.jpV0 nnn) s = .next t ∧
    t.pc.toNat = nnn.toNat + (s.getV 0).toNat ∧ t.pc.toNat ≤ 0x10FE ∧ Frame { pc := true } s t

/-! ### ALU -/

/-- R170 and R171: no flag. -/
def Obligations.ImmediateLoadAndAdd : Prop :=
  Selects 0xF000 0x6000 (fun w => .ldImm (fieldX w) (fieldKk w)) ∧
  Selects 0xF000 0x7000 (fun w => .addImm (fieldX w) (fieldKk w)) ∧
  ∀ (x : RegIdx) (kk : Byte) (s : State),
    (∃ t, exec (.ldImm x kk) s = .next t ∧ t.getV x = kk ∧ Frame { regs := fun r => r = x } s t) ∧
    (∃ t, exec (.addImm x kk) s = .next t ∧ (t.getV x).toNat = ((s.getV x).toNat + kk.toNat) % 256 ∧
      Frame { regs := fun r => r = x } s t)

/-- R172 to R175: no flag. -/
def Obligations.AssignAndLogic : Prop :=
  Selects 0xF00F 0x8000 (fun w => .ldReg (fieldX w) (fieldY w)) ∧
  Selects 0xF00F 0x8001 (fun w => .orReg (fieldX w) (fieldY w)) ∧
  Selects 0xF00F 0x8002 (fun w => .andReg (fieldX w) (fieldY w)) ∧
  Selects 0xF00F 0x8003 (fun w => .xorReg (fieldX w) (fieldY w)) ∧
  ∀ (x y : RegIdx) (s : State),
    (∃ t, exec (.ldReg x y) s = .next t ∧ t.getV x = s.getV y ∧ Frame { regs := fun r => r = x } s t) ∧
    (∃ t, exec (.orReg x y) s = .next t ∧ t.getV x = s.getV x ||| s.getV y ∧
      Frame { regs := fun r => r = x } s t) ∧
    (∃ t, exec (.andReg x y) s = .next t ∧ t.getV x = s.getV x &&& s.getV y ∧
      Frame { regs := fun r => r = x } s t) ∧
    (∃ t, exec (.xorReg x y) s = .next t ∧ t.getV x = s.getV x ^^^ s.getV y ∧
      Frame { regs := fun r => r = x } s t)

/-- R176: the carry comes from the exact sum; with x = 0xF the sum overwrites it. -/
def Obligations.AddRegistersWithCarry : Prop :=
  Selects 0xF00F 0x8004 (fun w => .addReg (fieldX w) (fieldY w)) ∧
  ∀ (x y : RegIdx) (s : State), ∃ t, exec (.addReg x y) s = .next t ∧
    (t.getV x).toNat = ((s.getV x).toNat + (s.getV y).toNat) % 256 ∧
    (x ≠ regF → t.getV regF = if 255 < (s.getV x).toNat + (s.getV y).toNat then 1 else 0) ∧
    Frame { regs := fun r => r = x ∨ r = regF } s t

/-- R177: VF is 1 if V[x] > V[y], strictly; the difference is taken from V as it stands after VF is written (D10). -/
def Obligations.SubReadsAfterTheFlag : Prop :=
  Selects 0xF00F 0x8005 (fun w => .subReg (fieldX w) (fieldY w)) ∧
  ∀ (x y : RegIdx) (s : State), ∃ (t : State) (f : Nat), exec (.subReg x y) s = .next t ∧
    f = (if (s.getV y).toNat < (s.getV x).toNat then 1 else 0) ∧
    (t.getV x).toNat =
      ((if x = regF then f else (s.getV x).toNat) + 256 - (if y = regF then f else (s.getV y).toNat)) % 256 ∧
    (x ≠ regF → (t.getV regF).toNat = f) ∧
    Frame { regs := fun r => r = x ∨ r = regF } s t

/-- R178: VF is the old bit 0; VF itself always ends 0 (D10). Vy is not read. -/
def Obligations.ShrShiftsOutBitZero : Prop :=
  Selects 0xF00F 0x8006 (fun w => .shr (fieldX w)) ∧
  ∀ (x : RegIdx) (s : State), ∃ t, exec (.shr x) s = .next t ∧
    (x ≠ regF → (t.getV x).toNat = (s.getV x).toNat / 2 ∧ (t.getV regF).toNat = (s.getV x).toNat % 2) ∧
    (x = regF → t.getV regF = 0) ∧
    Frame { regs := fun r => r = x ∨ r = regF } s t

/-- R179: as R177 with the operands exchanged (D10). -/
def Obligations.SubnReadsAfterTheFlag : Prop :=
  Selects 0xF00F 0x8007 (fun w => .subnReg (fieldX w) (fieldY w)) ∧
  ∀ (x y : RegIdx) (s : State), ∃ (t : State) (f : Nat), exec (.subnReg x y) s = .next t ∧
    f = (if (s.getV x).toNat < (s.getV y).toNat then 1 else 0) ∧
    (t.getV x).toNat =
      ((if y = regF then f else (s.getV y).toNat) + 256 - (if x = regF then f else (s.getV x).toNat)) % 256 ∧
    (x ≠ regF → (t.getV regF).toNat = f) ∧
    Frame { regs := fun r => r = x ∨ r = regF } s t

/-- R180: VF is the old bit 7; VF itself ends 2 or 0 (D10). Vy is not read. -/
def Obligations.ShlShiftsOutBitSeven : Prop :=
  Selects 0xF00F 0x800E (fun w => .shl (fieldX w)) ∧
  ∀ (x : RegIdx) (s : State), ∃ t, exec (.shl x) s = .next t ∧
    (x ≠ regF → (t.getV x).toNat = (s.getV x).toNat * 2 % 256 ∧ (t.getV regF).toNat = (s.getV x).toNat / 128) ∧
    (x = regF → t.getV regF = if 128 ≤ (s.getV regF).toNat then 2 else 0) ∧
    Frame { regs := fun r => r = x ∨ r = regF } s t

/-- R181: the STEP's rnd AND kk, for every rnd the host may present (D14); no flag. -/
def Obligations.RndMasksTheHostsByte : Prop :=
  Selects 0xF000 0xC000 (fun w => .rnd (fieldX w) (fieldKk w)) ∧
  ∀ (x : RegIdx) (kk r : Byte) (s : State), ∃ t, exec (.rnd x kk) { s with rnd := r } = .next t ∧
    t.getV x = r &&& kk ∧ Frame { regs := fun q => q = x, random := true } s t

/-! ### Index register and memory -/

/-- R210: I <- zext_16(nnn). -/
def Obligations.LdISetsTheIndex : Prop :=
  Selects 0xF000 0xA000 (fun w => .ldI (fieldNnn w)) ∧
  ∀ (nnn : Addr12) (s : State), ∃ t, exec (.ldI nnn) s = .next t ∧ t.i.toNat = nnn.toNat ∧
    Frame { index := true } s t

/-- R211: modulo 2^16, no flag (D9). -/
def Obligations.AddIWrapsAtSixteenBits : Prop :=
  Selects 0xF0FF 0xF01E (fun w => .addI (fieldX w)) ∧
  ∀ (x : RegIdx) (s : State), ∃ t, exec (.addI x) s = .next t ∧
    t.i.toNat = (s.i.toNat + (s.getV x).toNat) % 65536 ∧ Frame { index := true } s t

/-- R212: the whole of V[x] is used. -/
def Obligations.LdFPointsAtTheGlyph : Prop :=
  Selects 0xF0FF 0xF029 (fun w => .ldF (fieldX w)) ∧
  ∀ (x : RegIdx) (s : State), ∃ t, exec (.ldF x) s = .next t ∧ t.i.toNat = (s.getV x).toNat * 5 + 0x050 ∧
    Frame { index := true } s t

/-- R213: hundreds, tens and ones at I, I+1 and I+2, each written where its address exists (D7). -/
def Obligations.LdBStoresThreeDigits : Prop :=
  Selects 0xF0FF 0xF033 (fun w => .ldB (fieldX w)) ∧
  ∀ (x : RegIdx) (s : State), ∃ t, exec (.ldB x) s = .next t ∧
    (indexPlus s 0 ≤ 0xFFF → (t.peek (indexPlus s 0)).toNat = (s.getV x).toNat / 100) ∧
    (indexPlus s 1 ≤ 0xFFF → (t.peek (indexPlus s 1)).toNat = (s.getV x).toNat / 10 % 10) ∧
    (indexPlus s 2 ≤ 0xFFF → (t.peek (indexPlus s 2)).toNat = (s.getV x).toNat % 10) ∧
    t.fault = (if indexPlus s 2 ≤ 0xFFF then s.fault else s.fault ||| 0x08#8) ∧
    Frame { bytes := fun a => ∃ k, k ≤ 2 ∧ a = indexPlus s k ∧ a ≤ 0xFFF, faults := fun b => b = .ar } s t

/-- R214: V0 to V[x] at I to I+x, each stored where its address exists (D7); I is unchanged. -/
def Obligations.StoreRegistersFillsMemory : Prop :=
  Selects 0xF0FF 0xF055 (fun w => .storeRegs (fieldX w)) ∧
  ∀ (x : RegIdx) (s : State), ∃ t, exec (.storeRegs x) s = .next t ∧
    (∀ r : RegIdx, r.val ≤ x.val → indexPlus s r.val ≤ 0xFFF → t.peek (indexPlus s r.val) = s.getV r) ∧
    t.fault = (if indexPlus s x.val ≤ 0xFFF then s.fault else s.fault ||| 0x08#8) ∧
    Frame { bytes := fun a => ∃ k, k ≤ x.val ∧ a = indexPlus s k ∧ a ≤ 0xFFF, faults := fun b => b = .ar } s t

/-- R215: V0 to V[x] from I to I+x; a register whose address does not exist is kept (D7); I is
unchanged (D12). -/
def Obligations.LoadRegistersReadMemory : Prop :=
  Selects 0xF0FF 0xF065 (fun w => .loadRegs (fieldX w)) ∧
  ∀ (x : RegIdx) (s : State), ∃ t, exec (.loadRegs x) s = .next t ∧
    (∀ r : RegIdx, r.val ≤ x.val →
      t.getV r = if indexPlus s r.val ≤ 0xFFF then s.peek (indexPlus s r.val) else s.getV r) ∧
    t.fault = (if indexPlus s x.val ≤ 0xFFF then s.fault else s.fault ||| 0x08#8) ∧
    Frame { regs := fun r => r.val ≤ x.val, faults := fun b => b = .ar } s t

/-- R64, R65 and R66: an effective address is I + k, exact; an access out of range sets AR and moves no byte (D7). -/
def Obligations.DataAccessesAreRangeChecked : Prop :=
  ∀ (s : State) (k : Nat) (b : Byte),
    indexPlus s k = s.i.toNat + k ∧
    (indexPlus s k ≤ 0xFFF → memRead (indexPlus s k) s = (some (s.peek (indexPlus s k)), s) ∧
      (memWrite (indexPlus s k) b s).peek (indexPlus s k) = b ∧
      Frame { bytes := fun a => a = indexPlus s k } s (memWrite (indexPlus s k) b s)) ∧
    (0xFFF < indexPlus s k → memRead (indexPlus s k) s = (none, { s with fault := s.fault ||| 0x08#8 }) ∧
      memWrite (indexPlus s k) b s = { s with fault := s.fault ||| 0x08#8 })

/-- R76, which the spec derives: a store over the next instruction is what the next STEP fetches. -/
def Obligations.StoredCodeIsFetchedNext : Prop :=
  ∀ (x : RegIdx) (s : State), 1 ≤ x.val → s.i = s.pc → s.pc.toNat ≤ 0xFFE →
    ∃ t w, exec (.storeRegs x) s = .next t ∧ fetchWord t = some w ∧
      w.toNat = (s.getV 0).toNat * 256 + (s.getV 1).toNat

/-! ### Keys and timers -/

/-- R240 and R241; the no-op on an index above 15 is D6. -/
def Obligations.KeySkipsOrSetKr : Prop :=
  Selects 0xF0FF 0xE09E (fun w => .skp (fieldX w)) ∧
  Selects 0xF0FF 0xE0A1 (fun w => .sknp (fieldX w)) ∧
  ∀ (x : RegIdx) (s : State),
    (∃ t, exec (.skp x) s = .next t ∧
      (15 < (s.getV x).toNat → t.pc = s.pc ∧ t.fault = s.fault ||| 0x04#8) ∧
      ((s.getV x).toNat ≤ 15 → t.fault = s.fault ∧
        t.pc = if s.keys.getLsbD (s.getV x).toNat = true then s.pc + 2 else s.pc) ∧
      Frame { pc := true, faults := fun b => b = .kr } s t) ∧
    (∃ t, exec (.sknp x) s = .next t ∧
      (15 < (s.getV x).toNat → t.pc = s.pc ∧ t.fault = s.fault ||| 0x04#8) ∧
      ((s.getV x).toNat ≤ 15 → t.fault = s.fault ∧
        t.pc = if s.keys.getLsbD (s.getV x).toNat = true then s.pc else s.pc + 2) ∧
      Frame { pc := true, faults := fun b => b = .kr } s t)

/-- R242, R244 and R245: DT is read and set, ST is set. -/
def Obligations.TimersReadAndSet : Prop :=
  Selects 0xF0FF 0xF007 (fun w => .ldVxDt (fieldX w)) ∧
  Selects 0xF0FF 0xF015 (fun w => .ldDtVx (fieldX w)) ∧
  Selects 0xF0FF 0xF018 (fun w => .ldStVx (fieldX w)) ∧
  ∀ (x : RegIdx) (s : State),
    (∃ t, exec (.ldVxDt x) s = .next t ∧ t.getV x = s.dt ∧ Frame { regs := fun r => r = x } s t) ∧
    (∃ t, exec (.ldDtVx x) s = .next t ∧ t.dt = s.getV x ∧ Frame { delay := true } s t) ∧
    (∃ t, exec (.ldStVx x) s = .next t ∧ t.st = s.getV x ∧ Frame { sound := true } s t)

/-- R243: the highest key that is down; with none PC goes back to p and V[x] is kept. -/
def Obligations.WaitForKeyTakesTheHighest : Prop :=
  Selects 0xF0FF 0xF00A (fun w => .ldVxK (fieldX w)) ∧
  ∀ (x : RegIdx) (s : State), ∃ t, exec (.ldVxK x) s = .next t ∧
    ((∀ k, k < 16 → s.keys.getLsbD k = false) → t.pc = s.pc - 2 ∧ t.getV x = s.getV x) ∧
    (∀ k, k < 16 → s.keys.getLsbD k = true → (∀ j, k < j → j < 16 → s.keys.getLsbD j = false) →
      t.pc = s.pc ∧ (t.getV x).toNat = k) ∧
    Frame { regs := fun r => r = x, pc := true } s t

/-! ### FAULT -/

/-- The condition column of R271 (D16) with R273, which the spec derives: after an instruction exactly the bits set
before and the one whose condition held are set. -/
def Obligations.FaultBitsHaveExactlyTheirCauses : Prop :=
  (∀ (i : Instr) (s t : State), exec i s = .next t →
    (∀ b : FaultBit, t.fault.getLsbD b.index = true ↔ (s.fault.getLsbD b.index = true ∨ raises i s b)) ∧
    (∀ n, 5 ≤ n → t.fault.getLsbD n = s.fault.getLsbD n)) ∧
  (∀ (s t : State), 0xFFE < s.pc.toNat → step s = .next t → t.fault = s.fault ||| 0x10#8)

/-- R273, which the spec derives: no STEP raises two different bits. -/
def Obligations.OneStepRaisesAtMostOneBit : Prop :=
  ∀ s t : State, step s = .next t → ∃ b : FaultBit, t.fault = s.fault ∨ t.fault = s.fault ||| b.mask

/-- R272 (D16): every transaction but RESET keeps every FAULT bit that is set; RESET clears them. -/
def Obligations.FaultBitsAreStickyUntilReset : Prop :=
  (∀ (tr : Transaction) (s t : State) (o : Output), tr ≠ .reset → transact tr s = .next (t, o) →
    ∀ n, s.fault.getLsbD n = true → t.fault.getLsbD n = true) ∧
  ∀ (s t : State) (o : Output), transact .reset s = .next (t, o) → t.fault = 0

/-! ### Whole-machine rules -/

/-- R35, its write columns: every instruction changes at most what the access matrix gives it. `accessMatrix` completes
R35 with the FAULT bits of R271, the addresses of the stores and the model's own fields; that completion is the model's
(DEDUCED: log entry 15). -/
def Obligations.AccessMatrixBoundsEveryInstruction : Prop :=
  ∀ (i : Instr) (s t : State), exec i s = .next t → Frame (accessMatrix i s) s t

/-- R22: an instruction that changes VF is one of the six with a side effect on it, or names VF as its destination. -/
def Obligations.OnlyListedInstructionsChangeVf : Prop :=
  ∀ (i : Instr) (s t : State), exec i s = .next t → t.getV regF ≠ s.getV regF →
    (∃ x y, i = .addReg x y ∨ i = .subReg x y ∨ i = .subnReg x y ∨ i = .shr x ∨ i = .shl x ∨
      ∃ n, i = .drw x y n) ∨
    (∃ kk, i = .ldImm regF kk ∨ i = .addImm regF kk ∨ i = .rnd regF kk) ∨
    (∃ y, i = .ldReg regF y ∨ i = .orReg regF y ∨ i = .andReg regF y ∨ i = .xorReg regF y) ∨
    i = .ldVxDt regF ∨ i = .ldVxK regF ∨ i = .loadRegs regF

/-- R39: what no instruction reads cannot reach a program. Two states that differ only in ST, REDRAW, FAULT and stale
stack entries step to two such states. -/
def Obligations.UnreadStateNeverReachesTheProgram : Prop :=
  ∀ s1 s2 t1 t2 : State, SameView s1 s2 → step s1 = .next t1 → step s2 = .next t2 → SameView t1 t2

/-- The reset state meets the invariant, whatever FONT and STACK_DEPTH are. Its clause on the canonical form of memory is
the model's own (DESIGN CHOICE: log entry 7). -/
def Obligations.ResetMeetsTheInvariant : Prop :=
  State.reset.Inv ∧ ∀ p : Config.Params, (State.resetWith p).Inv

/-- Every STEP keeps the invariant: FAULT bits 7:5 clear (R32), PC at most 0x10FE (R24, R147), SP at most STACK_DEPTH (R25),
saved PCs at most 0x1000 (R91, R142), and memory in its canonical form, which is the model's own (DESIGN CHOICE: log
entry 7). -/
def Obligations.StepKeepsTheInvariant : Prop :=
  ∀ s t : State, s.Inv → step s = .next t → t.Inv

/-- Every schedule of transactions keeps the invariant: the same clauses, and the same model's own one (DESIGN CHOICE: log
entry 7). -/
def Obligations.EveryScheduleKeepsTheInvariant : Prop :=
  ∀ (trs : List Transaction) (s t : State) (os : List Output), s.Inv → runTransactions trs s = .next (t, os) → t.Inv

/-- R63: after any number of STEPs that do not store to the font region, the font region is unchanged. -/
def Obligations.FontSurvivesStepsThatAvoidIt : Prop :=
  ∀ (n : Nat) (s t : State), stepsAvoid (fun a => 0x050 ≤ a ∧ a ≤ 0x09F) n s →
    Host.Core.run Sys2Proof.core n s = .next t → ∀ a, 0x050 ≤ a → a ≤ 0x09F → t.peek a = s.peek a

/-! ### The host's transactions -/

/-- R320 and R40: RESET gives every item its reset value, whatever the state was. The values of I, STACK, REDRAW and
FAULT are D15; FONT and STACK_DEPTH are parameters, the same before and after (log entries 4 and 5). -/
def Obligations.ResetGivesEveryItemItsValue : Prop :=
  ∀ s : State, ∃ t, transact .reset s = .next (t, .silent) ∧
    (∀ a, a < 0x050 → t.peek a = 0) ∧
    (∀ j, j < 80 → s.font[j]? = some (t.peek (0x050 + j))) ∧
    (∀ a, 0x0A0 ≤ a → a ≤ 0xFFF → t.peek a = 0) ∧
    (∀ r, t.getV r = 0) ∧ t.i = 0 ∧ t.pc = 0x200#16 ∧ t.sp = 0 ∧
    t.stack = List.replicate s.stackDepth 0 ∧ t.params = s.params ∧ t.dt = 0 ∧ t.st = 0 ∧
    (∀ p, p < 2048 → t.disp.bitAt p = false) ∧ t.redraw = false ∧
    (∀ k, k < 16 → t.keys.getLsbD k = false) ∧ t.fault = 0

/-- R278 and R279: TICK counts both timers toward 0, reports the edge when ST goes from 1 to 0, and changes nothing
else (D24). -/
def Obligations.TickCountsDownAndReportsTheEdge : Prop :=
  ∀ s : State, ∃ t edge, transact .tick s = .next (t, .toneEdge edge) ∧
    t.dt.toNat = s.dt.toNat - 1 ∧ t.st.toNat = s.st.toNat - 1 ∧
    (edge = true ↔ (s.st.toNat = 1 ∧ t.st.toNat = 0)) ∧
    Frame { delay := true, sound := true } s t

/-- R281, R282 and R284: ACK_REDRAW clears REDRAW, SET_KEYS overwrites all 16 keys, READ changes nothing and returns every
item of R20, and none of them changes anything else. What the snapshot holds in the model's own `rnd` and `draws` is left
open. -/
def Obligations.AckSetKeysAndReadChangeOnlyTheirItem : Prop :=
  ∀ (s : State) (ks : BitVec 16),
    transact .ackRedraw s = .next ({ s with redraw := false }, .silent) ∧
    transact (.setKeys ks) s = .next ({ s with keys := ks }, .silent) ∧
    ∃ o, transact .read s = .next (s, .snapshot o) ∧ o = { s with rnd := o.rnd, draws := o.draws }

/-- R283 (D28): LOAD writes one byte of the program region, and nothing at an offset of 3584 or above; and an image
loaded byte by byte stands at 0x200, with no other byte changed. -/
def Obligations.LoadFillsTheProgramRegion : Prop :=
  (∀ (s : State) (offset : Nat) (b : Byte), ∃ t, transact (.load offset b) s = .next (t, .silent) ∧
    (offset ≤ 3583 → t.peek (0x200 + offset) = b ∧ Frame { bytes := fun a => a = 0x200 + offset } s t) ∧
    (3584 ≤ offset → t = s)) ∧
  ∀ (image : List Byte) (s : State), image.length ≤ 3584 →
    ∃ t os, runTransactions (loadImage image 0) s = .next (t, os) ∧
      (∀ k, k < image.length → image[k]? = some (t.peek (0x200 + k))) ∧
      Frame { bytes := fun a => 0x200 ≤ a ∧ a < 0x200 + image.length } s t

/-- The model's own: a word placed for the host is what the very next step fetches and runs (DESIGN CHOICE:
log entry 6). -/
def Obligations.PlacedWordRunsNext : Prop :=
  ∀ (s : State) (w : Word), step (s.withFetchWord 16 w.toNat) =
    exec (decodeWord w) { s.withFetchWord 16 w.toNat with pc := (s.withFetchWord 16 w.toNat).pc + 2 }

/-- R62: after RESET at the default parameters the 80 bytes from 0x050 are the default FONT; with another FONT
they are that FONT. STACK_DEPTH is then 16 (R5; D3). The default bytes are the spec's general knowledge (D20; log entry 5). -/
def Obligations.FontStandsAt0x050 : Prop :=
  (List.range 80).map (fun j => State.reset.peek (0x050 + j)) =
    [0xF0, 0x90, 0x90, 0x90, 0xF0] ++ [0x20, 0x60, 0x20, 0x20, 0x70] ++ [0xF0, 0x10, 0xF0, 0x80, 0xF0] ++
    [0xF0, 0x10, 0xF0, 0x10, 0xF0] ++ [0x90, 0x90, 0xF0, 0x10, 0x10] ++ [0xF0, 0x80, 0xF0, 0x10, 0xF0] ++
    [0xF0, 0x80, 0xF0, 0x90, 0xF0] ++ [0xF0, 0x10, 0x20, 0x40, 0x40] ++ [0xF0, 0x90, 0xF0, 0x90, 0xF0] ++
    [0xF0, 0x90, 0xF0, 0x10, 0xF0] ++ [0xF0, 0x90, 0xF0, 0x90, 0x90] ++ [0xE0, 0x90, 0xE0, 0x90, 0xE0] ++
    [0xF0, 0x80, 0x80, 0x80, 0xF0] ++ [0xE0, 0x90, 0x90, 0x90, 0xE0] ++ [0xF0, 0x80, 0xF0, 0x80, 0xF0] ++
    [0xF0, 0x80, 0xF0, 0x80, 0x80] ∧
  State.reset.stackDepth = 16 ∧
  ∀ (p : Config.Params) (g r : Nat), g < 16 → r < 5 →
    p.font[5 * g + r]? = some ((State.resetWith p).peek (0x050 + 5 * g + r))

/-- R280 with R5's OPEN parameter (D21): at every ratio STEPS_PER_TICK, any keys and any random bytes, the first n periods
of the host's schedule complete, with STEPS_PER_TICK STEPs to each of the n TICKs, and answer n tone_edge outputs. The form of a
period is the model's choice (DESIGN CHOICE: log entry 11). -/
def Obligations.HostScheduleKeepsTheRatio : Prop :=
  ∀ (stepsPerTick : Nat) (keys : Nat → BitVec 16) (rnd : Nat → Nat → Byte) (n : Nat) (s : State),
    ∃ t os, runTransactions (hostSchedule stepsPerTick keys rnd n) s = .next (t, os) ∧
      (hostSchedule stepsPerTick keys rnd n).countP Transaction.isStep = n * stepsPerTick ∧
      (hostSchedule stepsPerTick keys rnd n).countP Transaction.isTick = n ∧
      os.countP Output.isToneEdge = n
end

