-- ==== Sys2Proof/Laws/Decode.lean ====
section
/-! SUPPORT. The fields of a word built from nibbles, and a word rebuilt from its fields. -/

namespace Sys2Proof

theorem word4_toNat (a b c d : Nibble) :
    (word4 a b c d).toNat = a.toNat * 4096 + b.toNat * 256 + c.toNat * 16 + d.toNat := by
  unfold word4
  simp only [BitVec.toNat_append]
  rw [← Nat.shiftLeft_add_eq_or_of_lt (by omega), ← Nat.shiftLeft_add_eq_or_of_lt (by omega),
    ← Nat.shiftLeft_add_eq_or_of_lt (by omega)]
  omega

/-! ### Fields as numbers (R94) -/

theorem fieldFamily_toNat (w : Word) : (fieldFamily w).toNat = w.toNat / 4096 := by
  simp [fieldFamily, BitVec.extractLsb'_toNat, Nat.shiftRight_eq_div_pow]; omega

theorem fieldX_val (w : Word) : (fieldX w).val = w.toNat / 256 % 16 := by
  show (w.extractLsb' 8 4).toNat = _
  simp [BitVec.extractLsb'_toNat, Nat.shiftRight_eq_div_pow]

theorem fieldY_val (w : Word) : (fieldY w).val = w.toNat / 16 % 16 := by
  show (w.extractLsb' 4 4).toNat = _
  simp [BitVec.extractLsb'_toNat, Nat.shiftRight_eq_div_pow]

theorem fieldNnn_toNat (w : Word) : (fieldNnn w).toNat = w.toNat % 4096 := by
  simp [fieldNnn, BitVec.extractLsb'_toNat]

theorem fieldKk_toNat (w : Word) : (fieldKk w).toNat = w.toNat % 256 := by
  simp [fieldKk, BitVec.extractLsb'_toNat]

theorem fieldN_toNat (w : Word) : (fieldN w).toNat = w.toNat % 16 := by
  simp [fieldN, BitVec.extractLsb'_toNat]

theorem regNibble_toNat (r : RegIdx) : (regNibble r).toNat = r.val := rfl

theorem toNat_high_low (b : Byte) : (b.extractLsb' 4 4).toNat * 16 + (b.extractLsb' 0 4).toNat = b.toNat := by
  simp [BitVec.extractLsb'_toNat, Nat.shiftRight_eq_div_pow]; omega

/-! ### The three word shapes as numbers -/

theorem wordXKk_toNat (fam : Nibble) (x : RegIdx) (kk : Byte) :
    (wordXKk fam x kk).toNat = fam.toNat * 4096 + x.val * 256 + kk.toNat := by
  have := toNat_high_low kk
  rw [wordXKk, word4_toNat, regNibble_toNat]; omega

theorem wordXYN_toNat (fam : Nibble) (x y : RegIdx) (n : Nibble) :
    (wordXYN fam x y n).toNat = fam.toNat * 4096 + x.val * 256 + y.val * 16 + n.toNat := by
  rw [wordXYN, word4_toNat, regNibble_toNat, regNibble_toNat]

theorem wordNnn_toNat (fam : Nibble) (nnn : Addr12) : (wordNnn fam nnn).toNat = fam.toNat * 4096 + nnn.toNat := by
  have : (nnn.extractLsb' 8 4).toNat * 256 + (nnn.extractLsb' 4 4).toNat * 16 + (nnn.extractLsb' 0 4).toNat =
      nnn.toNat := by
    simp [BitVec.extractLsb'_toNat, Nat.shiftRight_eq_div_pow]; omega
  rw [wordNnn, word4_toNat, ← this]
  simp only [Nat.add_assoc]

/-! ### The fields of the three word shapes -/

section
variable (fam n : Nibble) (x y : RegIdx) (kk : Byte) (nnn : Addr12)

@[simp] theorem fieldFamily_wordXKk : fieldFamily (wordXKk fam x kk) = fam :=
  BitVec.eq_of_toNat_eq (by rw [fieldFamily_toNat, wordXKk_toNat]; omega)

@[simp] theorem fieldX_wordXKk : fieldX (wordXKk fam x kk) = x :=
  Fin.ext (by rw [fieldX_val, wordXKk_toNat]; omega)

@[simp] theorem fieldKk_wordXKk : fieldKk (wordXKk fam x kk) = kk :=
  BitVec.eq_of_toNat_eq (by rw [fieldKk_toNat, wordXKk_toNat]; omega)

@[simp] theorem fieldFamily_wordXYN : fieldFamily (wordXYN fam x y n) = fam :=
  BitVec.eq_of_toNat_eq (by rw [fieldFamily_toNat, wordXYN_toNat]; omega)

@[simp] theorem fieldX_wordXYN : fieldX (wordXYN fam x y n) = x :=
  Fin.ext (by rw [fieldX_val, wordXYN_toNat]; omega)

@[simp] theorem fieldY_wordXYN : fieldY (wordXYN fam x y n) = y :=
  Fin.ext (by rw [fieldY_val, wordXYN_toNat]; omega)

@[simp] theorem fieldN_wordXYN : fieldN (wordXYN fam x y n) = n :=
  BitVec.eq_of_toNat_eq (by rw [fieldN_toNat, wordXYN_toNat]; omega)

@[simp] theorem fieldFamily_wordNnn : fieldFamily (wordNnn fam nnn) = fam :=
  BitVec.eq_of_toNat_eq (by rw [fieldFamily_toNat, wordNnn_toNat]; omega)

@[simp] theorem fieldNnn_wordNnn : fieldNnn (wordNnn fam nnn) = nnn :=
  BitVec.eq_of_toNat_eq (by rw [fieldNnn_toNat, wordNnn_toNat]; omega)

@[simp] theorem fieldKk_wordNnn : fieldKk (wordNnn fam nnn) = nnn.extractLsb' 0 8 :=
  BitVec.eq_of_toNat_eq (by rw [fieldKk_toNat, wordNnn_toNat]; simp [BitVec.extractLsb'_toNat]; omega)

@[simp] theorem fieldN_wordNnn : fieldN (wordNnn fam nnn) = nnn.extractLsb' 0 4 :=
  BitVec.eq_of_toNat_eq (by rw [fieldN_toNat, wordNnn_toNat]; simp [BitVec.extractLsb'_toNat]; omega)

end

/-! ### A word's match with a mask, as equalities of its fields -/

theorem and_F000 (w : Word) (f : Nibble) : w &&& 0xF000#16 = word4 f 0 0 0 ↔ fieldFamily w = f := by
  constructor
  · intro h
    have := congrArg (BitVec.extractLsb' 12 4) h
    rw [BitVec.extractLsb'_and] at this
    have hf : (word4 f 0 0 0).extractLsb' 12 4 = f :=
      BitVec.eq_of_toNat_eq (by
        have h1 := fieldFamily_toNat (word4 f 0 0 0)
        rw [fieldFamily] at h1
        rw [h1, word4_toNat]
        simp)
    rw [hf, show (0xF000#16).extractLsb' 12 4 = BitVec.allOnes 4 by decide, BitVec.and_allOnes] at this
    exact this
  · rintro rfl
    apply BitVec.eq_of_getLsbD_eq
    intro i hi
    simp only [word4, fieldFamily, BitVec.getLsbD_and, BitVec.getLsbD_append, BitVec.getLsbD_extractLsb']
    have : i = 0 ∨ i = 1 ∨ i = 2 ∨ i = 3 ∨ i = 4 ∨ i = 5 ∨ i = 6 ∨ i = 7 ∨ i = 8 ∨ i = 9 ∨ i = 10 ∨ i = 11 ∨
        i = 12 ∨ i = 13 ∨ i = 14 ∨ i = 15 := by omega
    rcases this with h | h | h | h | h | h | h | h | h | h | h | h | h | h | h | h <;> subst h <;> simp

theorem and_F0FF (w : Word) (f c d : Nibble) :
    w &&& 0xF0FF#16 = word4 f 0 c d ↔ fieldFamily w = f ∧ fieldKk w = c ++ d := by
  constructor
  · intro h
    have h1 := congrArg (BitVec.extractLsb' 12 4) h
    have h2 := congrArg (BitVec.extractLsb' 0 8) h
    rw [BitVec.extractLsb'_and] at h1 h2
    have e1 : (word4 f 0 c d).extractLsb' 12 4 = f :=
      BitVec.eq_of_toNat_eq (by
        have h1 := fieldFamily_toNat (word4 f 0 c d)
        rw [fieldFamily] at h1
        rw [h1, word4_toNat]
        simp; omega)
    have e2 : (word4 f 0 c d).extractLsb' 0 8 = c ++ d :=
      BitVec.eq_of_toNat_eq (by
        have h1 := fieldKk_toNat (word4 f 0 c d)
        rw [fieldKk] at h1
        rw [h1, word4_toNat, BitVec.toNat_append, ← Nat.shiftLeft_add_eq_or_of_lt (by omega)]
        simp; omega)
    rw [e1, show (0xF0FF#16).extractLsb' 12 4 = BitVec.allOnes 4 by decide, BitVec.and_allOnes] at h1
    rw [e2, show (0xF0FF#16).extractLsb' 0 8 = BitVec.allOnes 8 by decide, BitVec.and_allOnes] at h2
    exact ⟨h1, h2⟩
  · rintro ⟨rfl, h⟩
    have h' : ∀ i, (c ++ d).getLsbD i = (decide (i < 8) && w.getLsbD i) := fun i => by
      rw [← h, fieldKk, BitVec.getLsbD_extractLsb', Nat.zero_add]
    simp only [BitVec.getLsbD_append] at h'
    apply BitVec.eq_of_getLsbD_eq
    intro i hi
    have hlow := h' i
    simp only [word4, fieldFamily, BitVec.getLsbD_and, BitVec.getLsbD_append, BitVec.getLsbD_extractLsb']
    have : i = 0 ∨ i = 1 ∨ i = 2 ∨ i = 3 ∨ i = 4 ∨ i = 5 ∨ i = 6 ∨ i = 7 ∨ i = 8 ∨ i = 9 ∨ i = 10 ∨ i = 11 ∨
        i = 12 ∨ i = 13 ∨ i = 14 ∨ i = 15 := by omega
    rcases this with h | h | h | h | h | h | h | h | h | h | h | h | h | h | h | h <;> subst h <;>
      simp at hlow <;> simp [hlow]

theorem and_F00F (w : Word) (f d : Nibble) :
    w &&& 0xF00F#16 = word4 f 0 0 d ↔ fieldFamily w = f ∧ fieldN w = d := by
  constructor
  · intro h
    have h1 := congrArg (BitVec.extractLsb' 12 4) h
    have h2 := congrArg (BitVec.extractLsb' 0 4) h
    rw [BitVec.extractLsb'_and] at h1 h2
    have e1 : (word4 f 0 0 d).extractLsb' 12 4 = f :=
      BitVec.eq_of_toNat_eq (by
        have h1 := fieldFamily_toNat (word4 f 0 0 d)
        rw [fieldFamily] at h1
        rw [h1, word4_toNat]
        simp; omega)
    have e2 : (word4 f 0 0 d).extractLsb' 0 4 = d :=
      BitVec.eq_of_toNat_eq (by
        have h1 := fieldN_toNat (word4 f 0 0 d)
        rw [fieldN] at h1
        rw [h1, word4_toNat]
        simp; omega)
    rw [e1, show (0xF00F#16).extractLsb' 12 4 = BitVec.allOnes 4 by decide, BitVec.and_allOnes] at h1
    rw [e2, show (0xF00F#16).extractLsb' 0 4 = BitVec.allOnes 4 by decide, BitVec.and_allOnes] at h2
    exact ⟨h1, h2⟩
  · rintro ⟨rfl, rfl⟩
    apply BitVec.eq_of_getLsbD_eq
    intro i hi
    simp only [word4, fieldFamily, fieldN, BitVec.getLsbD_and, BitVec.getLsbD_append, BitVec.getLsbD_extractLsb']
    have : i = 0 ∨ i = 1 ∨ i = 2 ∨ i = 3 ∨ i = 4 ∨ i = 5 ∨ i = 6 ∨ i = 7 ∨ i = 8 ∨ i = 9 ∨ i = 10 ∨ i = 11 ∨
        i = 12 ∨ i = 13 ∨ i = 14 ∨ i = 15 := by omega
    rcases this with h | h | h | h | h | h | h | h | h | h | h | h | h | h | h | h <;> subst h <;> simp

end Sys2Proof
end

