-- ==== Sys2Proof/Laws/State.lean ====
section
/-! SUPPORT. One lemma per field per state update, and one per derived read an update does not touch: later proofs unfold no
record update. The reads that an update does touch are in Laws/Memory.lean and Laws/Ops.lean. -/

namespace Sys2Proof.Machine.State

variable (s : State)

/-! ### poke -/

@[simp] theorem poke_mem (a : Nat) (b : Byte) : (s.poke a b).mem = s.mem.write s.font a b := rfl
@[simp] theorem poke_v (a : Nat) (b : Byte) : (s.poke a b).v = s.v := rfl
@[simp] theorem poke_i (a : Nat) (b : Byte) : (s.poke a b).i = s.i := rfl
@[simp] theorem poke_pc (a : Nat) (b : Byte) : (s.poke a b).pc = s.pc := rfl
@[simp] theorem poke_stack (a : Nat) (b : Byte) : (s.poke a b).stack = s.stack := rfl
@[simp] theorem poke_sp (a : Nat) (b : Byte) : (s.poke a b).sp = s.sp := rfl
@[simp] theorem poke_dt (a : Nat) (b : Byte) : (s.poke a b).dt = s.dt := rfl
@[simp] theorem poke_st (a : Nat) (b : Byte) : (s.poke a b).st = s.st := rfl
@[simp] theorem poke_disp (a : Nat) (b : Byte) : (s.poke a b).disp = s.disp := rfl
@[simp] theorem poke_redraw (a : Nat) (b : Byte) : (s.poke a b).redraw = s.redraw := rfl
@[simp] theorem poke_keys (a : Nat) (b : Byte) : (s.poke a b).keys = s.keys := rfl
@[simp] theorem poke_fault (a : Nat) (b : Byte) : (s.poke a b).fault = s.fault := rfl
@[simp] theorem poke_font (a : Nat) (b : Byte) : (s.poke a b).font = s.font := rfl
@[simp] theorem poke_stackDepth (a : Nat) (b : Byte) : (s.poke a b).stackDepth = s.stackDepth := rfl
@[simp] theorem poke_params (a : Nat) (b : Byte) : (s.poke a b).params = s.params := rfl
@[simp] theorem poke_rnd (a : Nat) (b : Byte) : (s.poke a b).rnd = s.rnd := rfl
@[simp] theorem poke_draws (a : Nat) (b : Byte) : (s.poke a b).draws = s.draws := rfl
@[simp] theorem getV_poke (a : Nat) (b : Byte) (q : RegIdx) : (s.poke a b).getV q = s.getV q := rfl
@[simp] theorem pixel_poke (a : Nat) (b : Byte) (x y : Nat) : (s.poke a b).pixel x y = s.pixel x y := rfl
@[simp] theorem keyDown_poke (a : Nat) (b : Byte) (k : Nat) : (s.poke a b).keyDown k = s.keyDown k := rfl
@[simp] theorem stackAt_poke (a : Nat) (b : Byte) (k : Nat) : (s.poke a b).stackAt k = s.stackAt k := rfl

/-! ### setV -/

@[simp] theorem setV_mem (r : RegIdx) (b : Byte) : (s.setV r b).mem = s.mem := rfl
@[simp] theorem setV_v (r : RegIdx) (b : Byte) : (s.setV r b).v = s.v.set r.val b r.isLt := rfl
@[simp] theorem setV_i (r : RegIdx) (b : Byte) : (s.setV r b).i = s.i := rfl
@[simp] theorem setV_pc (r : RegIdx) (b : Byte) : (s.setV r b).pc = s.pc := rfl
@[simp] theorem setV_stack (r : RegIdx) (b : Byte) : (s.setV r b).stack = s.stack := rfl
@[simp] theorem setV_sp (r : RegIdx) (b : Byte) : (s.setV r b).sp = s.sp := rfl
@[simp] theorem setV_dt (r : RegIdx) (b : Byte) : (s.setV r b).dt = s.dt := rfl
@[simp] theorem setV_st (r : RegIdx) (b : Byte) : (s.setV r b).st = s.st := rfl
@[simp] theorem setV_disp (r : RegIdx) (b : Byte) : (s.setV r b).disp = s.disp := rfl
@[simp] theorem setV_redraw (r : RegIdx) (b : Byte) : (s.setV r b).redraw = s.redraw := rfl
@[simp] theorem setV_keys (r : RegIdx) (b : Byte) : (s.setV r b).keys = s.keys := rfl
@[simp] theorem setV_fault (r : RegIdx) (b : Byte) : (s.setV r b).fault = s.fault := rfl
@[simp] theorem setV_font (r : RegIdx) (b : Byte) : (s.setV r b).font = s.font := rfl
@[simp] theorem setV_stackDepth (r : RegIdx) (b : Byte) : (s.setV r b).stackDepth = s.stackDepth := rfl
@[simp] theorem setV_params (r : RegIdx) (b : Byte) : (s.setV r b).params = s.params := rfl
@[simp] theorem setV_rnd (r : RegIdx) (b : Byte) : (s.setV r b).rnd = s.rnd := rfl
@[simp] theorem setV_draws (r : RegIdx) (b : Byte) : (s.setV r b).draws = s.draws := rfl
@[simp] theorem peek_setV (r : RegIdx) (b : Byte) (c : Nat) : (s.setV r b).peek c = s.peek c := rfl
@[simp] theorem pixel_setV (r : RegIdx) (b : Byte) (x y : Nat) : (s.setV r b).pixel x y = s.pixel x y := rfl
@[simp] theorem keyDown_setV (r : RegIdx) (b : Byte) (k : Nat) : (s.setV r b).keyDown k = s.keyDown k := rfl
@[simp] theorem stackAt_setV (r : RegIdx) (b : Byte) (k : Nat) : (s.setV r b).stackAt k = s.stackAt k := rfl

/-! ### setI -/

@[simp] theorem setI_mem (w : Word) : (s.setI w).mem = s.mem := rfl
@[simp] theorem setI_v (w : Word) : (s.setI w).v = s.v := rfl
@[simp] theorem setI_i (w : Word) : (s.setI w).i = w := rfl
@[simp] theorem setI_pc (w : Word) : (s.setI w).pc = s.pc := rfl
@[simp] theorem setI_stack (w : Word) : (s.setI w).stack = s.stack := rfl
@[simp] theorem setI_sp (w : Word) : (s.setI w).sp = s.sp := rfl
@[simp] theorem setI_dt (w : Word) : (s.setI w).dt = s.dt := rfl
@[simp] theorem setI_st (w : Word) : (s.setI w).st = s.st := rfl
@[simp] theorem setI_disp (w : Word) : (s.setI w).disp = s.disp := rfl
@[simp] theorem setI_redraw (w : Word) : (s.setI w).redraw = s.redraw := rfl
@[simp] theorem setI_keys (w : Word) : (s.setI w).keys = s.keys := rfl
@[simp] theorem setI_fault (w : Word) : (s.setI w).fault = s.fault := rfl
@[simp] theorem setI_font (w : Word) : (s.setI w).font = s.font := rfl
@[simp] theorem setI_stackDepth (w : Word) : (s.setI w).stackDepth = s.stackDepth := rfl
@[simp] theorem setI_params (w : Word) : (s.setI w).params = s.params := rfl
@[simp] theorem setI_rnd (w : Word) : (s.setI w).rnd = s.rnd := rfl
@[simp] theorem setI_draws (w : Word) : (s.setI w).draws = s.draws := rfl
@[simp] theorem getV_setI (w : Word) (q : RegIdx) : (s.setI w).getV q = s.getV q := rfl
@[simp] theorem peek_setI (w : Word) (c : Nat) : (s.setI w).peek c = s.peek c := rfl
@[simp] theorem pixel_setI (w : Word) (x y : Nat) : (s.setI w).pixel x y = s.pixel x y := rfl
@[simp] theorem keyDown_setI (w : Word) (k : Nat) : (s.setI w).keyDown k = s.keyDown k := rfl
@[simp] theorem stackAt_setI (w : Word) (k : Nat) : (s.setI w).stackAt k = s.stackAt k := rfl

/-! ### setPc -/

@[simp] theorem setPc_mem (w : Word) : (s.setPc w).mem = s.mem := rfl
@[simp] theorem setPc_v (w : Word) : (s.setPc w).v = s.v := rfl
@[simp] theorem setPc_i (w : Word) : (s.setPc w).i = s.i := rfl
@[simp] theorem setPc_pc (w : Word) : (s.setPc w).pc = w := rfl
@[simp] theorem setPc_stack (w : Word) : (s.setPc w).stack = s.stack := rfl
@[simp] theorem setPc_sp (w : Word) : (s.setPc w).sp = s.sp := rfl
@[simp] theorem setPc_dt (w : Word) : (s.setPc w).dt = s.dt := rfl
@[simp] theorem setPc_st (w : Word) : (s.setPc w).st = s.st := rfl
@[simp] theorem setPc_disp (w : Word) : (s.setPc w).disp = s.disp := rfl
@[simp] theorem setPc_redraw (w : Word) : (s.setPc w).redraw = s.redraw := rfl
@[simp] theorem setPc_keys (w : Word) : (s.setPc w).keys = s.keys := rfl
@[simp] theorem setPc_fault (w : Word) : (s.setPc w).fault = s.fault := rfl
@[simp] theorem setPc_font (w : Word) : (s.setPc w).font = s.font := rfl
@[simp] theorem setPc_stackDepth (w : Word) : (s.setPc w).stackDepth = s.stackDepth := rfl
@[simp] theorem setPc_params (w : Word) : (s.setPc w).params = s.params := rfl
@[simp] theorem setPc_rnd (w : Word) : (s.setPc w).rnd = s.rnd := rfl
@[simp] theorem setPc_draws (w : Word) : (s.setPc w).draws = s.draws := rfl
@[simp] theorem getV_setPc (w : Word) (q : RegIdx) : (s.setPc w).getV q = s.getV q := rfl
@[simp] theorem peek_setPc (w : Word) (c : Nat) : (s.setPc w).peek c = s.peek c := rfl
@[simp] theorem pixel_setPc (w : Word) (x y : Nat) : (s.setPc w).pixel x y = s.pixel x y := rfl
@[simp] theorem keyDown_setPc (w : Word) (k : Nat) : (s.setPc w).keyDown k = s.keyDown k := rfl
@[simp] theorem stackAt_setPc (w : Word) (k : Nat) : (s.setPc w).stackAt k = s.stackAt k := rfl

/-! ### setDt -/

@[simp] theorem setDt_mem (b : Byte) : (s.setDt b).mem = s.mem := rfl
@[simp] theorem setDt_v (b : Byte) : (s.setDt b).v = s.v := rfl
@[simp] theorem setDt_i (b : Byte) : (s.setDt b).i = s.i := rfl
@[simp] theorem setDt_pc (b : Byte) : (s.setDt b).pc = s.pc := rfl
@[simp] theorem setDt_stack (b : Byte) : (s.setDt b).stack = s.stack := rfl
@[simp] theorem setDt_sp (b : Byte) : (s.setDt b).sp = s.sp := rfl
@[simp] theorem setDt_dt (b : Byte) : (s.setDt b).dt = b := rfl
@[simp] theorem setDt_st (b : Byte) : (s.setDt b).st = s.st := rfl
@[simp] theorem setDt_disp (b : Byte) : (s.setDt b).disp = s.disp := rfl
@[simp] theorem setDt_redraw (b : Byte) : (s.setDt b).redraw = s.redraw := rfl
@[simp] theorem setDt_keys (b : Byte) : (s.setDt b).keys = s.keys := rfl
@[simp] theorem setDt_fault (b : Byte) : (s.setDt b).fault = s.fault := rfl
@[simp] theorem setDt_font (b : Byte) : (s.setDt b).font = s.font := rfl
@[simp] theorem setDt_stackDepth (b : Byte) : (s.setDt b).stackDepth = s.stackDepth := rfl
@[simp] theorem setDt_params (b : Byte) : (s.setDt b).params = s.params := rfl
@[simp] theorem setDt_rnd (b : Byte) : (s.setDt b).rnd = s.rnd := rfl
@[simp] theorem setDt_draws (b : Byte) : (s.setDt b).draws = s.draws := rfl
@[simp] theorem getV_setDt (b : Byte) (q : RegIdx) : (s.setDt b).getV q = s.getV q := rfl
@[simp] theorem peek_setDt (b : Byte) (c : Nat) : (s.setDt b).peek c = s.peek c := rfl
@[simp] theorem pixel_setDt (b : Byte) (x y : Nat) : (s.setDt b).pixel x y = s.pixel x y := rfl
@[simp] theorem keyDown_setDt (b : Byte) (k : Nat) : (s.setDt b).keyDown k = s.keyDown k := rfl
@[simp] theorem stackAt_setDt (b : Byte) (k : Nat) : (s.setDt b).stackAt k = s.stackAt k := rfl

/-! ### setSt -/

@[simp] theorem setSt_mem (b : Byte) : (s.setSt b).mem = s.mem := rfl
@[simp] theorem setSt_v (b : Byte) : (s.setSt b).v = s.v := rfl
@[simp] theorem setSt_i (b : Byte) : (s.setSt b).i = s.i := rfl
@[simp] theorem setSt_pc (b : Byte) : (s.setSt b).pc = s.pc := rfl
@[simp] theorem setSt_stack (b : Byte) : (s.setSt b).stack = s.stack := rfl
@[simp] theorem setSt_sp (b : Byte) : (s.setSt b).sp = s.sp := rfl
@[simp] theorem setSt_dt (b : Byte) : (s.setSt b).dt = s.dt := rfl
@[simp] theorem setSt_st (b : Byte) : (s.setSt b).st = b := rfl
@[simp] theorem setSt_disp (b : Byte) : (s.setSt b).disp = s.disp := rfl
@[simp] theorem setSt_redraw (b : Byte) : (s.setSt b).redraw = s.redraw := rfl
@[simp] theorem setSt_keys (b : Byte) : (s.setSt b).keys = s.keys := rfl
@[simp] theorem setSt_fault (b : Byte) : (s.setSt b).fault = s.fault := rfl
@[simp] theorem setSt_font (b : Byte) : (s.setSt b).font = s.font := rfl
@[simp] theorem setSt_stackDepth (b : Byte) : (s.setSt b).stackDepth = s.stackDepth := rfl
@[simp] theorem setSt_params (b : Byte) : (s.setSt b).params = s.params := rfl
@[simp] theorem setSt_rnd (b : Byte) : (s.setSt b).rnd = s.rnd := rfl
@[simp] theorem setSt_draws (b : Byte) : (s.setSt b).draws = s.draws := rfl
@[simp] theorem getV_setSt (b : Byte) (q : RegIdx) : (s.setSt b).getV q = s.getV q := rfl
@[simp] theorem peek_setSt (b : Byte) (c : Nat) : (s.setSt b).peek c = s.peek c := rfl
@[simp] theorem pixel_setSt (b : Byte) (x y : Nat) : (s.setSt b).pixel x y = s.pixel x y := rfl
@[simp] theorem keyDown_setSt (b : Byte) (k : Nat) : (s.setSt b).keyDown k = s.keyDown k := rfl
@[simp] theorem stackAt_setSt (b : Byte) (k : Nat) : (s.setSt b).stackAt k = s.stackAt k := rfl

/-! ### setRedraw -/

@[simp] theorem setRedraw_mem (b : Bool) : (s.setRedraw b).mem = s.mem := rfl
@[simp] theorem setRedraw_v (b : Bool) : (s.setRedraw b).v = s.v := rfl
@[simp] theorem setRedraw_i (b : Bool) : (s.setRedraw b).i = s.i := rfl
@[simp] theorem setRedraw_pc (b : Bool) : (s.setRedraw b).pc = s.pc := rfl
@[simp] theorem setRedraw_stack (b : Bool) : (s.setRedraw b).stack = s.stack := rfl
@[simp] theorem setRedraw_sp (b : Bool) : (s.setRedraw b).sp = s.sp := rfl
@[simp] theorem setRedraw_dt (b : Bool) : (s.setRedraw b).dt = s.dt := rfl
@[simp] theorem setRedraw_st (b : Bool) : (s.setRedraw b).st = s.st := rfl
@[simp] theorem setRedraw_disp (b : Bool) : (s.setRedraw b).disp = s.disp := rfl
@[simp] theorem setRedraw_redraw (b : Bool) : (s.setRedraw b).redraw = b := rfl
@[simp] theorem setRedraw_keys (b : Bool) : (s.setRedraw b).keys = s.keys := rfl
@[simp] theorem setRedraw_fault (b : Bool) : (s.setRedraw b).fault = s.fault := rfl
@[simp] theorem setRedraw_font (b : Bool) : (s.setRedraw b).font = s.font := rfl
@[simp] theorem setRedraw_stackDepth (b : Bool) : (s.setRedraw b).stackDepth = s.stackDepth := rfl
@[simp] theorem setRedraw_params (b : Bool) : (s.setRedraw b).params = s.params := rfl
@[simp] theorem setRedraw_rnd (b : Bool) : (s.setRedraw b).rnd = s.rnd := rfl
@[simp] theorem setRedraw_draws (b : Bool) : (s.setRedraw b).draws = s.draws := rfl
@[simp] theorem getV_setRedraw (b : Bool) (q : RegIdx) : (s.setRedraw b).getV q = s.getV q := rfl
@[simp] theorem peek_setRedraw (b : Bool) (c : Nat) : (s.setRedraw b).peek c = s.peek c := rfl
@[simp] theorem pixel_setRedraw (b : Bool) (x y : Nat) : (s.setRedraw b).pixel x y = s.pixel x y := rfl
@[simp] theorem keyDown_setRedraw (b : Bool) (k : Nat) : (s.setRedraw b).keyDown k = s.keyDown k := rfl
@[simp] theorem stackAt_setRedraw (b : Bool) (k : Nat) : (s.setRedraw b).stackAt k = s.stackAt k := rfl

/-! ### setKeys -/

@[simp] theorem setKeys_mem (ks : BitVec 16) : (s.setKeys ks).mem = s.mem := rfl
@[simp] theorem setKeys_v (ks : BitVec 16) : (s.setKeys ks).v = s.v := rfl
@[simp] theorem setKeys_i (ks : BitVec 16) : (s.setKeys ks).i = s.i := rfl
@[simp] theorem setKeys_pc (ks : BitVec 16) : (s.setKeys ks).pc = s.pc := rfl
@[simp] theorem setKeys_stack (ks : BitVec 16) : (s.setKeys ks).stack = s.stack := rfl
@[simp] theorem setKeys_sp (ks : BitVec 16) : (s.setKeys ks).sp = s.sp := rfl
@[simp] theorem setKeys_dt (ks : BitVec 16) : (s.setKeys ks).dt = s.dt := rfl
@[simp] theorem setKeys_st (ks : BitVec 16) : (s.setKeys ks).st = s.st := rfl
@[simp] theorem setKeys_disp (ks : BitVec 16) : (s.setKeys ks).disp = s.disp := rfl
@[simp] theorem setKeys_redraw (ks : BitVec 16) : (s.setKeys ks).redraw = s.redraw := rfl
@[simp] theorem setKeys_keys (ks : BitVec 16) : (s.setKeys ks).keys = ks := rfl
@[simp] theorem setKeys_fault (ks : BitVec 16) : (s.setKeys ks).fault = s.fault := rfl
@[simp] theorem setKeys_font (ks : BitVec 16) : (s.setKeys ks).font = s.font := rfl
@[simp] theorem setKeys_stackDepth (ks : BitVec 16) : (s.setKeys ks).stackDepth = s.stackDepth := rfl
@[simp] theorem setKeys_params (ks : BitVec 16) : (s.setKeys ks).params = s.params := rfl
@[simp] theorem setKeys_rnd (ks : BitVec 16) : (s.setKeys ks).rnd = s.rnd := rfl
@[simp] theorem setKeys_draws (ks : BitVec 16) : (s.setKeys ks).draws = s.draws := rfl
@[simp] theorem getV_setKeys (ks : BitVec 16) (q : RegIdx) : (s.setKeys ks).getV q = s.getV q := rfl
@[simp] theorem peek_setKeys (ks : BitVec 16) (c : Nat) : (s.setKeys ks).peek c = s.peek c := rfl
@[simp] theorem pixel_setKeys (ks : BitVec 16) (x y : Nat) : (s.setKeys ks).pixel x y = s.pixel x y := rfl
@[simp] theorem stackAt_setKeys (ks : BitVec 16) (k : Nat) : (s.setKeys ks).stackAt k = s.stackAt k := rfl

/-! ### presentRnd -/

@[simp] theorem presentRnd_mem (b : Byte) : (s.presentRnd b).mem = s.mem := rfl
@[simp] theorem presentRnd_v (b : Byte) : (s.presentRnd b).v = s.v := rfl
@[simp] theorem presentRnd_i (b : Byte) : (s.presentRnd b).i = s.i := rfl
@[simp] theorem presentRnd_pc (b : Byte) : (s.presentRnd b).pc = s.pc := rfl
@[simp] theorem presentRnd_stack (b : Byte) : (s.presentRnd b).stack = s.stack := rfl
@[simp] theorem presentRnd_sp (b : Byte) : (s.presentRnd b).sp = s.sp := rfl
@[simp] theorem presentRnd_dt (b : Byte) : (s.presentRnd b).dt = s.dt := rfl
@[simp] theorem presentRnd_st (b : Byte) : (s.presentRnd b).st = s.st := rfl
@[simp] theorem presentRnd_disp (b : Byte) : (s.presentRnd b).disp = s.disp := rfl
@[simp] theorem presentRnd_redraw (b : Byte) : (s.presentRnd b).redraw = s.redraw := rfl
@[simp] theorem presentRnd_keys (b : Byte) : (s.presentRnd b).keys = s.keys := rfl
@[simp] theorem presentRnd_fault (b : Byte) : (s.presentRnd b).fault = s.fault := rfl
@[simp] theorem presentRnd_font (b : Byte) : (s.presentRnd b).font = s.font := rfl
@[simp] theorem presentRnd_stackDepth (b : Byte) : (s.presentRnd b).stackDepth = s.stackDepth := rfl
@[simp] theorem presentRnd_params (b : Byte) : (s.presentRnd b).params = s.params := rfl
@[simp] theorem presentRnd_rnd (b : Byte) : (s.presentRnd b).rnd = b := rfl
@[simp] theorem presentRnd_draws (b : Byte) : (s.presentRnd b).draws = s.draws := rfl
@[simp] theorem getV_presentRnd (b : Byte) (q : RegIdx) : (s.presentRnd b).getV q = s.getV q := rfl
@[simp] theorem peek_presentRnd (b : Byte) (c : Nat) : (s.presentRnd b).peek c = s.peek c := rfl
@[simp] theorem pixel_presentRnd (b : Byte) (x y : Nat) : (s.presentRnd b).pixel x y = s.pixel x y := rfl
@[simp] theorem keyDown_presentRnd (b : Byte) (k : Nat) : (s.presentRnd b).keyDown k = s.keyDown k := rfl
@[simp] theorem stackAt_presentRnd (b : Byte) (k : Nat) : (s.presentRnd b).stackAt k = s.stackAt k := rfl

/-! ### freshRnd -/

@[simp] theorem freshRnd_mem : s.freshRnd.mem = s.mem := rfl
@[simp] theorem freshRnd_v : s.freshRnd.v = s.v := rfl
@[simp] theorem freshRnd_i : s.freshRnd.i = s.i := rfl
@[simp] theorem freshRnd_pc : s.freshRnd.pc = s.pc := rfl
@[simp] theorem freshRnd_stack : s.freshRnd.stack = s.stack := rfl
@[simp] theorem freshRnd_sp : s.freshRnd.sp = s.sp := rfl
@[simp] theorem freshRnd_dt : s.freshRnd.dt = s.dt := rfl
@[simp] theorem freshRnd_st : s.freshRnd.st = s.st := rfl
@[simp] theorem freshRnd_disp : s.freshRnd.disp = s.disp := rfl
@[simp] theorem freshRnd_redraw : s.freshRnd.redraw = s.redraw := rfl
@[simp] theorem freshRnd_keys : s.freshRnd.keys = s.keys := rfl
@[simp] theorem freshRnd_fault : s.freshRnd.fault = s.fault := rfl
@[simp] theorem freshRnd_font : s.freshRnd.font = s.font := rfl
@[simp] theorem freshRnd_stackDepth : s.freshRnd.stackDepth = s.stackDepth := rfl
@[simp] theorem freshRnd_params : s.freshRnd.params = s.params := rfl
@[simp] theorem freshRnd_rnd : s.freshRnd.rnd = Config.freeRnd s.draws := rfl
@[simp] theorem freshRnd_draws : s.freshRnd.draws = s.draws + 1 := rfl
@[simp] theorem getV_freshRnd (q : RegIdx) : s.freshRnd.getV q = s.getV q := rfl
@[simp] theorem peek_freshRnd (c : Nat) : s.freshRnd.peek c = s.peek c := rfl
@[simp] theorem pixel_freshRnd (x y : Nat) : s.freshRnd.pixel x y = s.pixel x y := rfl
@[simp] theorem keyDown_freshRnd (k : Nat) : s.freshRnd.keyDown k = s.keyDown k := rfl
@[simp] theorem stackAt_freshRnd (k : Nat) : s.freshRnd.stackAt k = s.stackAt k := rfl

/-! ### raise -/

@[simp] theorem raise_mem (b : FaultBit) : (s.raise b).mem = s.mem := rfl
@[simp] theorem raise_v (b : FaultBit) : (s.raise b).v = s.v := rfl
@[simp] theorem raise_i (b : FaultBit) : (s.raise b).i = s.i := rfl
@[simp] theorem raise_pc (b : FaultBit) : (s.raise b).pc = s.pc := rfl
@[simp] theorem raise_stack (b : FaultBit) : (s.raise b).stack = s.stack := rfl
@[simp] theorem raise_sp (b : FaultBit) : (s.raise b).sp = s.sp := rfl
@[simp] theorem raise_dt (b : FaultBit) : (s.raise b).dt = s.dt := rfl
@[simp] theorem raise_st (b : FaultBit) : (s.raise b).st = s.st := rfl
@[simp] theorem raise_disp (b : FaultBit) : (s.raise b).disp = s.disp := rfl
@[simp] theorem raise_redraw (b : FaultBit) : (s.raise b).redraw = s.redraw := rfl
@[simp] theorem raise_keys (b : FaultBit) : (s.raise b).keys = s.keys := rfl
@[simp] theorem raise_fault (b : FaultBit) : (s.raise b).fault = s.fault ||| b.mask := rfl
@[simp] theorem raise_font (b : FaultBit) : (s.raise b).font = s.font := rfl
@[simp] theorem raise_stackDepth (b : FaultBit) : (s.raise b).stackDepth = s.stackDepth := rfl
@[simp] theorem raise_params (b : FaultBit) : (s.raise b).params = s.params := rfl
@[simp] theorem raise_rnd (b : FaultBit) : (s.raise b).rnd = s.rnd := rfl
@[simp] theorem raise_draws (b : FaultBit) : (s.raise b).draws = s.draws := rfl
@[simp] theorem getV_raise (b : FaultBit) (q : RegIdx) : (s.raise b).getV q = s.getV q := rfl
@[simp] theorem peek_raise (b : FaultBit) (c : Nat) : (s.raise b).peek c = s.peek c := rfl
@[simp] theorem pixel_raise (b : FaultBit) (x y : Nat) : (s.raise b).pixel x y = s.pixel x y := rfl
@[simp] theorem keyDown_raise (b : FaultBit) (k : Nat) : (s.raise b).keyDown k = s.keyDown k := rfl
@[simp] theorem stackAt_raise (b : FaultBit) (k : Nat) : (s.raise b).stackAt k = s.stackAt k := rfl

/-! ### advance -/

@[simp] theorem advance_mem : s.advance.mem = s.mem := rfl
@[simp] theorem advance_v : s.advance.v = s.v := rfl
@[simp] theorem advance_i : s.advance.i = s.i := rfl
@[simp] theorem advance_pc : s.advance.pc = s.pc + 2 := rfl
@[simp] theorem advance_stack : s.advance.stack = s.stack := rfl
@[simp] theorem advance_sp : s.advance.sp = s.sp := rfl
@[simp] theorem advance_dt : s.advance.dt = s.dt := rfl
@[simp] theorem advance_st : s.advance.st = s.st := rfl
@[simp] theorem advance_disp : s.advance.disp = s.disp := rfl
@[simp] theorem advance_redraw : s.advance.redraw = s.redraw := rfl
@[simp] theorem advance_keys : s.advance.keys = s.keys := rfl
@[simp] theorem advance_fault : s.advance.fault = s.fault := rfl
@[simp] theorem advance_font : s.advance.font = s.font := rfl
@[simp] theorem advance_stackDepth : s.advance.stackDepth = s.stackDepth := rfl
@[simp] theorem advance_params : s.advance.params = s.params := rfl
@[simp] theorem advance_rnd : s.advance.rnd = s.rnd := rfl
@[simp] theorem advance_draws : s.advance.draws = s.draws := rfl
@[simp] theorem getV_advance (q : RegIdx) : s.advance.getV q = s.getV q := rfl
@[simp] theorem peek_advance (c : Nat) : s.advance.peek c = s.peek c := rfl
@[simp] theorem pixel_advance (x y : Nat) : s.advance.pixel x y = s.pixel x y := rfl
@[simp] theorem keyDown_advance (k : Nat) : s.advance.keyDown k = s.keyDown k := rfl
@[simp] theorem stackAt_advance (k : Nat) : s.advance.stackAt k = s.stackAt k := rfl

/-! ### flipDisp -/

@[simp] theorem flipDisp_mem (p : Nat) : (s.flipDisp p).mem = s.mem := rfl
@[simp] theorem flipDisp_v (p : Nat) : (s.flipDisp p).v = s.v := rfl
@[simp] theorem flipDisp_i (p : Nat) : (s.flipDisp p).i = s.i := rfl
@[simp] theorem flipDisp_pc (p : Nat) : (s.flipDisp p).pc = s.pc := rfl
@[simp] theorem flipDisp_stack (p : Nat) : (s.flipDisp p).stack = s.stack := rfl
@[simp] theorem flipDisp_sp (p : Nat) : (s.flipDisp p).sp = s.sp := rfl
@[simp] theorem flipDisp_dt (p : Nat) : (s.flipDisp p).dt = s.dt := rfl
@[simp] theorem flipDisp_st (p : Nat) : (s.flipDisp p).st = s.st := rfl
@[simp] theorem flipDisp_disp (p : Nat) : (s.flipDisp p).disp = s.disp.flip p := rfl
@[simp] theorem flipDisp_redraw (p : Nat) : (s.flipDisp p).redraw = s.redraw := rfl
@[simp] theorem flipDisp_keys (p : Nat) : (s.flipDisp p).keys = s.keys := rfl
@[simp] theorem flipDisp_fault (p : Nat) : (s.flipDisp p).fault = s.fault := rfl
@[simp] theorem flipDisp_font (p : Nat) : (s.flipDisp p).font = s.font := rfl
@[simp] theorem flipDisp_stackDepth (p : Nat) : (s.flipDisp p).stackDepth = s.stackDepth := rfl
@[simp] theorem flipDisp_params (p : Nat) : (s.flipDisp p).params = s.params := rfl
@[simp] theorem flipDisp_rnd (p : Nat) : (s.flipDisp p).rnd = s.rnd := rfl
@[simp] theorem flipDisp_draws (p : Nat) : (s.flipDisp p).draws = s.draws := rfl
@[simp] theorem getV_flipDisp (p : Nat) (q : RegIdx) : (s.flipDisp p).getV q = s.getV q := rfl
@[simp] theorem peek_flipDisp (p : Nat) (c : Nat) : (s.flipDisp p).peek c = s.peek c := rfl
@[simp] theorem keyDown_flipDisp (p : Nat) (k : Nat) : (s.flipDisp p).keyDown k = s.keyDown k := rfl
@[simp] theorem stackAt_flipDisp (p : Nat) (k : Nat) : (s.flipDisp p).stackAt k = s.stackAt k := rfl

/-! ### clearDisp -/

@[simp] theorem clearDisp_mem : s.clearDisp.mem = s.mem := rfl
@[simp] theorem clearDisp_v : s.clearDisp.v = s.v := rfl
@[simp] theorem clearDisp_i : s.clearDisp.i = s.i := rfl
@[simp] theorem clearDisp_pc : s.clearDisp.pc = s.pc := rfl
@[simp] theorem clearDisp_stack : s.clearDisp.stack = s.stack := rfl
@[simp] theorem clearDisp_sp : s.clearDisp.sp = s.sp := rfl
@[simp] theorem clearDisp_dt : s.clearDisp.dt = s.dt := rfl
@[simp] theorem clearDisp_st : s.clearDisp.st = s.st := rfl
@[simp] theorem clearDisp_disp : s.clearDisp.disp = Vector.replicate Config.dispH 0 := rfl
@[simp] theorem clearDisp_redraw : s.clearDisp.redraw = s.redraw := rfl
@[simp] theorem clearDisp_keys : s.clearDisp.keys = s.keys := rfl
@[simp] theorem clearDisp_fault : s.clearDisp.fault = s.fault := rfl
@[simp] theorem clearDisp_font : s.clearDisp.font = s.font := rfl
@[simp] theorem clearDisp_stackDepth : s.clearDisp.stackDepth = s.stackDepth := rfl
@[simp] theorem clearDisp_params : s.clearDisp.params = s.params := rfl
@[simp] theorem clearDisp_rnd : s.clearDisp.rnd = s.rnd := rfl
@[simp] theorem clearDisp_draws : s.clearDisp.draws = s.draws := rfl
@[simp] theorem getV_clearDisp (q : RegIdx) : s.clearDisp.getV q = s.getV q := rfl
@[simp] theorem peek_clearDisp (c : Nat) : s.clearDisp.peek c = s.peek c := rfl
@[simp] theorem keyDown_clearDisp (k : Nat) : s.clearDisp.keyDown k = s.keyDown k := rfl
@[simp] theorem stackAt_clearDisp (k : Nat) : s.clearDisp.stackAt k = s.stackAt k := rfl

end Sys2Proof.Machine.State
end

