-- ==== Sys2Proof/Laws/Memory.lean ====
section
/-! SUPPORT. What the memory operations do, for every memory; and that they keep the canonical form. -/

namespace Sys2Proof.Machine

namespace Memory

variable {font : Vector Byte Config.fontSize}

theorem read_forget_same (m : Memory) (a : Nat) : (m.forget a).read font a = initialByte font a := by
  induction m with
  | nil => rfl
  | cons c rest ih =>
    obtain ⟨k, b⟩ := c
    by_cases h : k = a <;> simp [Memory.forget, Memory.read, h, ih]

theorem read_forget_other (m : Memory) {a c : Nat} (h : c ≠ a) : (m.forget a).read font c = m.read font c := by
  induction m with
  | nil => rfl
  | cons d rest ih =>
    obtain ⟨k, b⟩ := d
    by_cases hk : k = a
    · have : ¬ k = c := fun e => h (e ▸ hk)
      simp [Memory.forget, Memory.read, hk, ih, Ne.symm h]
    · simp [Memory.forget, Memory.read, hk, ih]

/-- No entry at `a`. -/
def lacks (m : Memory) (a : Nat) : Prop := ∀ c ∈ m, c.1 ≠ a

theorem forget_lacks (m : Memory) (a : Nat) : (m.forget a).lacks a := by
  induction m with
  | nil => intro c hc; cases hc
  | cons d rest ih =>
    obtain ⟨k, b⟩ := d
    by_cases hk : k = a
    · simpa [Memory.forget, hk] using ih
    · intro c hc
      simp only [Memory.forget, hk, if_false, List.mem_cons] at hc
      rcases hc with rfl | hc
      · exact hk
      · exact ih c hc

theorem read_insertCell_same (m : Memory) (a : Nat) (b : Byte) (h : m.lacks a) : (m.insertCell a b).read font a = b := by
  induction m with
  | nil => simp [Memory.insertCell, Memory.read]
  | cons d rest ih =>
    obtain ⟨k, c⟩ := d
    have hk : k ≠ a := h (k, c) (by simp)
    have hr : Memory.lacks rest a := fun e he => h e (by simp [he])
    by_cases hlt : a < k
    · simp [Memory.insertCell, Memory.read, hlt]
    · simp [Memory.insertCell, Memory.read, hlt, hk, ih hr]

theorem read_insertCell_other (m : Memory) {a c : Nat} (b : Byte) (h : c ≠ a) :
    (m.insertCell a b).read font c = m.read font c := by
  induction m with
  | nil => simp [Memory.insertCell, Memory.read, Ne.symm h]
  | cons d rest ih =>
    obtain ⟨k, e⟩ := d
    by_cases hlt : a < k
    · simp [Memory.insertCell, Memory.read, hlt, Ne.symm h]
    · simp [Memory.insertCell, Memory.read, hlt, ih]

/-- Reading any address after a write. -/
@[simp] theorem read_write (m : Memory) (a c : Nat) (b : Byte) :
    (m.write font a b).read font c = if c = a then b else m.read font c := by
  unfold Memory.write
  by_cases hc : c = a
  · subst hc
    by_cases hb : b = initialByte font c
    · simp [hb, read_forget_same]
    · simp [hb, read_insertCell_same _ _ _ (forget_lacks m c)]
  · by_cases hb : b = initialByte font a
    · simp [hb, hc, read_forget_other m hc]
    · simp [hb, hc, read_insertCell_other _ b hc, read_forget_other m hc]

/-! ### The canonical form -/

theorem mem_of_mem_forget {m : Memory} {a : Nat} {c : Host.Cell} (h : c ∈ m.forget a) : c ∈ m := by
  induction m with
  | nil => exact h
  | cons d rest ih =>
    obtain ⟨k, b⟩ := d
    by_cases hk : k = a
    · simp only [Memory.forget, hk, if_true] at h
      exact List.mem_cons_of_mem _ (ih h)
    · simp only [Memory.forget, hk, if_false, List.mem_cons] at h
      rcases h with rfl | h
      · exact List.mem_cons_self
      · exact List.mem_cons_of_mem _ (ih h)

theorem forget_wf {m : Memory} (h : m.wf font) (a : Nat) : (m.forget a).wf font := by
  refine ⟨?_, fun c hc => h.2 c (mem_of_mem_forget hc)⟩
  have hp := h.1
  clear h
  induction m with
  | nil => exact List.Pairwise.nil
  | cons d rest ih =>
    obtain ⟨k, b⟩ := d
    rw [List.pairwise_cons] at hp
    by_cases hk : k = a
    · simpa [Memory.forget, hk] using ih hp.2
    · simp only [Memory.forget, hk, if_false, List.pairwise_cons]
      exact ⟨fun c hc => hp.1 c (mem_of_mem_forget hc), ih hp.2⟩

theorem mem_insertCell {m : Memory} {a : Nat} {b : Byte} {c : Host.Cell} (h : c ∈ m.insertCell a b) :
    c = (a, b) ∨ c ∈ m := by
  induction m with
  | nil => simpa [Memory.insertCell] using h
  | cons d rest ih =>
    obtain ⟨k, e⟩ := d
    by_cases hlt : a < k
    · simpa [Memory.insertCell, hlt] using h
    · simp only [Memory.insertCell, hlt, if_false, List.mem_cons] at h ⊢
      rcases h with h | h
      · exact .inr (.inl h)
      · rcases ih h with h | h
        · exact .inl h
        · exact .inr (.inr h)

theorem insertCell_rising {m : Memory} {a : Nat} (b : Byte) (h : m.Pairwise (fun c d => c.1 < d.1)) (hl : m.lacks a) :
    (m.insertCell a b).Pairwise (fun c d => c.1 < d.1) := by
  induction m with
  | nil => simp [Memory.insertCell]
  | cons d rest ih =>
    obtain ⟨k, e⟩ := d
    have hk : k ≠ a := hl (k, e) (by simp)
    have hlr : Memory.lacks rest a := fun c hc => hl c (by simp [hc])
    rw [List.pairwise_cons] at h
    by_cases hlt : a < k
    · simp only [Memory.insertCell, if_pos hlt, List.pairwise_cons, List.mem_cons, forall_eq_or_imp]
      exact ⟨⟨hlt, fun c hc => Nat.lt_trans hlt (h.1 c hc)⟩, h⟩
    · simp only [Memory.insertCell, hlt, if_false, List.pairwise_cons]
      refine ⟨fun c hc => ?_, ih h.2 hlr⟩
      rcases mem_insertCell hc with rfl | hc
      · show k < a
        omega
      · exact h.1 c hc

/-- Every write inside MEM keeps the canonical form. -/
theorem write_wf {m : Memory} (h : m.wf font) {a : Nat} (ha : a < Config.memSize) (b : Byte) : (m.write font a b).wf font := by
  unfold Memory.write
  by_cases hb : b = initialByte font a
  · simpa only [hb, if_true] using forget_wf h a
  · simp only [hb, if_false]
    have hf := forget_wf h a
    refine ⟨insertCell_rising b hf.1 (forget_lacks m a), fun c hc => ?_⟩
    rcases mem_insertCell hc with rfl | hc
    · exact ⟨ha, hb⟩
    · exact hf.2 c hc

end Memory

/-- MEM after one byte is written. -/
@[simp] theorem State.peek_poke (s : State) (a c : Nat) (b : Byte) :
    (s.poke a b).peek c = if c = a then b else s.peek c := Memory.read_write s.mem a c b

end Sys2Proof.Machine
end

