-- ==== Sys2Proof/Laws/Ops.lean ====
section
/-! SUPPORT. One specification lemma per shared operation: what it answers and what it leaves alone. -/

namespace Sys2Proof.Machine

/-! ### Registers -/

/-- Any register after one is written. -/
@[simp] theorem State.getV_setV (s : State) (r q : RegIdx) (b : Byte) :
    (s.setV r b).getV q = if q = r then b else s.getV q := by
  simp only [State.getV, State.setV, Vector.get_eq_getElem, Vector.getElem_set, Fin.ext_iff, eq_comm]

/-- The whole register file is what its registers are. -/
theorem State.v_ext {s t : State} (h : ∀ r, t.getV r = s.getV r) : t.v = s.v := by
  apply Vector.ext
  intro k hk
  simpa [State.getV, Vector.get_eq_getElem] using h ⟨k, hk⟩

@[simp] theorem State.setV_getV_self (s : State) (r : RegIdx) : s.setV r (s.getV r) = s := by
  have : (s.setV r (s.getV r)).v = s.v := State.v_ext fun q => by
    rw [State.getV_setV]; split
    · next h => rw [h]
    · rfl
  cases s
  simpa [State.setV] using this

/-! ### FAULT -/

/-- The bits of FAULT after a bit is raised. -/
@[simp] theorem State.raise_bit (s : State) (b : FaultBit) (n : Nat) :
    (s.raise b).fault.getLsbD n = (s.fault.getLsbD n || decide (n = b.index)) := by
  have hm : ∀ n, b.mask.getLsbD n = decide (n = b.index) := by
    intro n
    by_cases hn : n < 8
    · revert n; cases b <;> decide
    · have : b.index < 8 := by cases b <;> decide
      rw [BitVec.getLsbD_of_ge _ _ (by omega)]
      simp; omega
  simp [hm]

theorem FaultBit.index_lt (b : FaultBit) : b.index < 5 := by cases b <;> decide

theorem FaultBit.index_injective {b c : FaultBit} (h : b.index = c.index) : b = c := by
  cases b <;> cases c <;> first | rfl | (exact absurd h (by decide))

/-- Raising a bit keeps FAULT's reserved bits clear (R32). -/
theorem State.raise_reserved (s : State) (b : FaultBit) (h : s.fault &&& 0xE0#8 = 0#8) :
    (s.raise b).fault &&& 0xE0#8 = 0#8 := by
  have hb : b.mask &&& 0xE0#8 = 0#8 := by cases b <;> decide
  rw [State.raise_fault, BitVec.and_comm, BitVec.and_or_distrib_left, BitVec.and_comm, h, BitVec.and_comm, hb]
  rfl

/-- Raising a bit twice is raising it once. -/
@[simp] theorem State.raise_raise (s : State) (b : FaultBit) : (s.raise b).raise b = s.raise b := by
  simp [State.raise, BitVec.or_assoc]

/-! ### Range-checked accesses -/

theorem memRead_in {ea : Nat} (h : ea ≤ 0xFFF) (s : State) : memRead ea s = (some (s.peek ea), s) := if_pos h

theorem memRead_out {ea : Nat} (h : 0xFFF < ea) (s : State) : memRead ea s = (none, s.raise .ar) :=
  if_neg (by omega)

theorem memWrite_in {ea : Nat} (h : ea ≤ 0xFFF) (b : Byte) (s : State) : memWrite ea b s = s.poke ea b := if_pos h

theorem memWrite_out {ea : Nat} (h : 0xFFF < ea) (b : Byte) (s : State) : memWrite ea b s = s.raise .ar :=
  if_neg (by omega)

/-- MEM after a range-checked write. -/
theorem memWrite_peek (ea : Nat) (b : Byte) (s : State) (a : Nat) :
    (memWrite ea b s).peek a = if a = ea ∧ ea ≤ 0xFFF then b else s.peek a := by
  by_cases h : ea ≤ 0xFFF
  · simp [memWrite_in h, h]
  · simp [memWrite_out (Nat.lt_of_not_le h), h]

/-- FAULT after a range-checked write. -/
theorem memWrite_fault (ea : Nat) (b : Byte) (s : State) :
    (memWrite ea b s).fault = if ea ≤ 0xFFF then s.fault else s.fault ||| FaultBit.ar.mask := by
  by_cases h : ea ≤ 0xFFF
  · simp [memWrite_in h, h]
  · simp [memWrite_out (Nat.lt_of_not_le h), h]

/-- A range-checked write changes nothing but MEM and FAULT. -/
theorem memWrite_rest (ea : Nat) (b : Byte) (s : State) :
    memWrite ea b s = { s with mem := (memWrite ea b s).mem, fault := (memWrite ea b s).fault } := by
  by_cases h : ea ≤ 0xFFF
  · simp only [memWrite_in h]; rfl
  · simp only [memWrite_out (Nat.lt_of_not_le h)]; rfl

/-- A range-checked read changes nothing but FAULT. -/
theorem memRead_state (ea : Nat) (s : State) :
    (memRead ea s).2 = if ea ≤ 0xFFF then s else s.raise .ar := by
  unfold memRead; split <;> rfl

/-- AR over an ascending run of addresses: after the access at base + n it is set exactly when base + n is too high,
whatever the accesses below it did. -/
theorem fault_ascending (base n : Nat) (f m : Byte) :
    (if base + n ≤ 0xFFF then (if n = 0 ∨ base + (n - 1) ≤ 0xFFF then f else f ||| m)
      else (if n = 0 ∨ base + (n - 1) ≤ 0xFFF then f else f ||| m) ||| m) =
    if base + n ≤ 0xFFF then f else f ||| m := by
  have hm : f ||| m ||| m = f ||| m := by simp [BitVec.or_assoc]
  by_cases h : base + n ≤ 0xFFF
  · have h' : n = 0 ∨ base + (n - 1) ≤ 0xFFF := by omega
    simp only [h, h', if_true]
  · simp only [h, if_false]
    split
    · rfl
    · exact hm

/-! ### Skips and the stack -/

theorem skipIf_pc (c : Bool) (s : State) : (skipIf c s).pc = if c then s.pc + 2 else s.pc := by
  cases c <;> rfl

/-- A skip changes nothing but PC. -/
theorem skipIf_rest (c : Bool) (s : State) : skipIf c s = { s with pc := (skipIf c s).pc } := by
  cases c <;> rfl

/-- Push on a stack that is not full: the entry at SP, SP + 1, and nothing else (R26). -/
theorem push_ok (w : Word) (s : State) (h : s.sp ≠ s.stackDepth) :
    push w s = (true, { s with stack := s.stack.set s.sp w, sp := s.sp + 1 }) := if_neg h

/-- Push on a full stack: SO, and nothing else (R26). -/
theorem push_full (w : Word) (s : State) (h : s.sp = s.stackDepth) : push w s = (false, s.raise .so) := if_pos h

/-- Writing a stack entry keeps STACK_DEPTH and FONT. -/
@[simp] theorem params_set (s : State) (w p : Word) (n : Nat) :
    ({ s with pc := p, stack := s.stack.set s.sp w, sp := n } : State).params = s.params := by
  simp [State.params, State.stackDepth]

/-- STACK[k] after the entry at SP is written, SP in range. -/
theorem stackAt_set (s : State) (w : Word) (n : Nat) (h : s.sp < s.stackDepth) (k : Nat) :
    ({ s with stack := s.stack.set s.sp w, sp := n } : State).stackAt k = if k = s.sp then w else s.stackAt k := by
  have h' : s.sp < s.stack.length := h
  simp only [State.stackAt, List.getD_eq_getElem?_getD, List.getElem?_set]
  by_cases hk : k = s.sp
  · subst hk
    simp [h']
  · simp [hk, Ne.symm hk]

/-- Pop with an entry: the last one, SP − 1, and nothing else (R26). -/
theorem pop_ok (s : State) (h : 0 < s.sp) : pop s = (some (s.stackAt (s.sp - 1)), { s with sp := s.sp - 1 }) :=
  if_neg (by omega)

/-- Pop on an empty stack: SU, and nothing else (R26). -/
theorem pop_empty (s : State) (h : s.sp = 0) : pop s = (none, s.raise .su) := if_pos h

/-! ### The display -/

/-- Any pixel after one is flipped. -/
theorem Display.bitAt_flip (d : Display) {p : Nat} (hp : p < 2048) (q : Nat) :
    (d.flip p).bitAt q = (d.bitAt q ^^ decide (p = q)) := by
  have hrow : p / Config.dispW < Config.dispH := by
    show p / 64 < 32
    omega
  have hcol : p % Config.dispW < Config.dispW := Nat.mod_lt _ (by decide)
  unfold Display.flip
  rw [dif_pos hrow]
  simp only [Display.bitAt, Vector.toList_set, List.getD_eq_getElem?_getD, List.getElem?_set, Vector.length_toList]
  by_cases hr : p / Config.dispW = q / Config.dispW
  · have hq : q / Config.dispW < Config.dispH := hr ▸ hrow
    have hpq : (p % Config.dispW = q % Config.dispW) = (p = q) := by
      simp only [eq_iff_iff]
      constructor
      · intro h
        rw [← Nat.div_add_mod p Config.dispW, ← Nat.div_add_mod q Config.dispW, hr, h]
      · rintro rfl; rfl
    have hqc : q % Config.dispW < Config.dispW := Nat.mod_lt _ (by decide)
    simp only [hr, if_true, hq, Option.getD_some, BitVec.getLsbD_xor, BitVec.getLsbD_twoPow, hpq]
    simp [hq, ← hpq]
    intro _; exact hcol
  · have hpq : p ≠ q := fun e => hr (by rw [e])
    simp [hr, hpq]

theorem Display.bitAt_clear (p : Nat) : Display.bitAt (Vector.replicate Config.dispH 0) p = false := by
  unfold Display.bitAt
  by_cases h : p / Config.dispW < 32 <;> simp [h]

/-! ### The fetch and STEP -/

theorem fetchWord_in {s : State} (h : s.pc.toNat ≤ 0xFFE) :
    fetchWord s = some (wordOfBytes (s.peek s.pc.toNat) (s.peek (s.pc.toNat + 1))) := if_pos h

theorem fetchWord_out {s : State} (h : 0xFFE < s.pc.toNat) : fetchWord s = none := if_neg (by omega)

/-- What a STEP can be: a fetch fault, or the decoded instruction from the advanced state (R90, R91). -/
theorem step_cases (s : State) :
    (0xFFE < s.pc.toNat ∧ step s = .next (s.raise .fr)) ∨
    (s.pc.toNat ≤ 0xFFE ∧
      step s = exec (decodeWord (wordOfBytes (s.peek s.pc.toNat) (s.peek (s.pc.toNat + 1)))) s.advance) := by
  by_cases h : s.pc.toNat ≤ 0xFFE
  · exact .inr ⟨h, by simp only [step, fetchWord_in h]⟩
  · exact .inl ⟨by omega, by simp only [step, fetchWord_out (Nat.lt_of_not_le h)]; rfl⟩

end Sys2Proof.Machine
end

