-- ==== Sys2Proof/Laws/Loops.lean ====
section
/-! SUPPORT. What the loops of Fx55, Fx65 and Fx0A do, each by one induction over the loop's length. -/

namespace Sys2Proof.Machine

theorem firstRegs_zero : firstRegs 0 = [] := rfl

theorem firstRegs_succ {n : Nat} (h : n < 16) : firstRegs (n + 1) = firstRegs n ++ [⟨n, h⟩] := by
  simp [firstRegs, List.take_add_one, h]

/-! ### Fx55 -/

/-- One pass writes V[k] at I + k, if that exists, or sets AR; nothing else changes (R214). -/
theorem storeReg_spec (s : State) (k : RegIdx) :
    (∀ a, (storeReg s k).peek a = if a = indexPlus s k.val ∧ indexPlus s k.val ≤ 0xFFF then s.getV k else s.peek a) ∧
    (storeReg s k).fault = (if indexPlus s k.val ≤ 0xFFF then s.fault else s.fault ||| FaultBit.ar.mask) ∧
    storeReg s k = { s with mem := (storeReg s k).mem, fault := (storeReg s k).fault } :=
  ⟨fun _ => memWrite_peek .., memWrite_fault .., memWrite_rest ..⟩

/-- Fx55's loop over the first n registers: the byte at I + k is V[k] for each k < n whose address exists, AR is set
when the last address does not exist, and nothing else changes. -/
theorem storeRegs_spec (s : State) (n : Nat) (hn : n ≤ 16) :
    (∀ k (hk : k < n), indexPlus s k ≤ 0xFFF →
      ((firstRegs n).foldl storeReg s).peek (indexPlus s k) = s.getV ⟨k, by omega⟩) ∧
    (∀ a, (∀ k, k < n → a = indexPlus s k → 0xFFF < a) → ((firstRegs n).foldl storeReg s).peek a = s.peek a) ∧
    ((firstRegs n).foldl storeReg s).fault =
      (if n = 0 ∨ indexPlus s (n - 1) ≤ 0xFFF then s.fault else s.fault ||| FaultBit.ar.mask) ∧
    (firstRegs n).foldl storeReg s =
      { s with mem := ((firstRegs n).foldl storeReg s).mem, fault := ((firstRegs n).foldl storeReg s).fault } := by
  induction n with
  | zero => simp [firstRegs_zero]
  | succ n ih =>
    obtain ⟨ihIn, ihOut, ihF, ihR⟩ := ih (by omega)
    have hn' : n < 16 := by omega
    rw [firstRegs_succ hn', List.foldl_append, List.foldl_cons, List.foldl_nil]
    generalize (firstRegs n).foldl storeReg s = t at ihIn ihOut ihF ihR
    obtain ⟨hp, hf, hr⟩ := storeReg_spec t ⟨n, hn'⟩
    have hI : ∀ k, indexPlus t k = indexPlus s k := fun k => by rw [ihR]; rfl
    have hV : ∀ q, t.getV q = s.getV q := fun q => by rw [ihR]; rfl
    refine ⟨fun k hk hle => ?_, fun a ha => ?_, ?_, ?_⟩
    · rw [hp, hI]
      by_cases hkn : k = n
      · subst hkn
        simp [hle, hV]
      · have : ¬ indexPlus s k = indexPlus s n := by simp only [indexPlus]; omega
        simp only [this, false_and, if_false]
        exact ihIn k (by omega) hle
    · rw [hp, hI, if_neg, ihOut a fun k hk => ha k (by omega)]
      rintro ⟨h1, h2⟩
      have := ha n (by omega) h1
      omega
    · rw [hf, hI, ihF]
      simp only [indexPlus, Nat.add_one_sub_one, Nat.succ_ne_zero, false_or]
      exact fault_ascending ..
    · rw [hr, ihR]

/-! ### Fx65 -/

/-- One pass: V[k] becomes the byte at I + k, or is kept and AR set; nothing else changes (R215). -/
theorem loadReg_spec (s : State) (k : RegIdx) :
    (∀ q, (loadReg s k).getV q = if q = k ∧ indexPlus s k.val ≤ 0xFFF then s.peek (indexPlus s k.val) else s.getV q) ∧
    (loadReg s k).fault = (if indexPlus s k.val ≤ 0xFFF then s.fault else s.fault ||| FaultBit.ar.mask) ∧
    loadReg s k = { s with v := (loadReg s k).v, fault := (loadReg s k).fault } := by
  unfold loadReg
  by_cases h : indexPlus s k.val ≤ 0xFFF
  · simp only [memRead_in h, h, and_true, if_true]
    exact ⟨fun q => State.getV_setV .., rfl, rfl⟩
  · simp only [memRead_out (Nat.lt_of_not_le h), h, and_false, if_false]
    exact ⟨fun q => rfl, rfl, rfl⟩

/-- Fx65's loop over the first n registers. -/
theorem loadRegs_spec (s : State) (n : Nat) (hn : n ≤ 16) :
    (∀ q : RegIdx, ((firstRegs n).foldl loadReg s).getV q =
      if q.val < n ∧ indexPlus s q.val ≤ 0xFFF then s.peek (indexPlus s q.val) else s.getV q) ∧
    ((firstRegs n).foldl loadReg s).fault =
      (if n = 0 ∨ indexPlus s (n - 1) ≤ 0xFFF then s.fault else s.fault ||| FaultBit.ar.mask) ∧
    (firstRegs n).foldl loadReg s =
      { s with v := ((firstRegs n).foldl loadReg s).v, fault := ((firstRegs n).foldl loadReg s).fault } := by
  induction n with
  | zero => simp [firstRegs_zero]
  | succ n ih =>
    obtain ⟨ihV, ihF, ihR⟩ := ih (by omega)
    have hn' : n < 16 := by omega
    rw [firstRegs_succ hn', List.foldl_append, List.foldl_cons, List.foldl_nil]
    generalize (firstRegs n).foldl loadReg s = t at ihV ihF ihR
    obtain ⟨hv, hf, hr⟩ := loadReg_spec t ⟨n, hn'⟩
    have hI : ∀ k, indexPlus t k = indexPlus s k := fun k => by rw [ihR]; rfl
    have hP : ∀ a, t.peek a = s.peek a := fun a => by rw [ihR]; rfl
    refine ⟨fun q => ?_, ?_, ?_⟩
    · rw [hv, hI, hP, ihV]
      by_cases hq : q = ⟨n, hn'⟩
      · subst hq; simp
      · have : q.val ≠ n := fun e => hq (Fin.ext e)
        have h1 : (q.val < n + 1) = (q.val < n) := by simp only [eq_iff_iff]; omega
        simp only [hq, false_and, if_false, h1]
    · rw [hf, hI, ihF]
      simp only [indexPlus, Nat.add_one_sub_one, Nat.succ_ne_zero, false_or]
      exact fault_ascending ..
    · rw [hr, ihR]

/-! ### Fx0A -/

/-- The scan of the first n keys ends with the highest key that is down, or with none (R243). -/
theorem scan_spec (s : State) (n : Nat) :
    (∀ b, (List.range n).foldl (scanKey s) none = some b →
      ∃ k, k < n ∧ s.keyDown k = true ∧ b = BitVec.ofNat 8 k ∧ ∀ j, k < j → j < n → s.keyDown j = false) ∧
    ((List.range n).foldl (scanKey s) none = none → ∀ j, j < n → s.keyDown j = false) := by
  induction n with
  | zero => simp
  | succ n ih =>
    rw [List.range_succ, List.foldl_append, List.foldl_cons, List.foldl_nil]
    generalize (List.range n).foldl (scanKey s) none = found at ih
    unfold scanKey
    cases hk : s.keyDown n
    · simp only [Bool.false_eq_true, if_false]
      refine ⟨fun b hb => ?_, fun hno j hj => ?_⟩
      · obtain ⟨k, h1, h2, h3, h4⟩ := ih.1 b hb
        refine ⟨k, by omega, h2, h3, fun j hkj hj => ?_⟩
        by_cases hjn : j = n
        · rw [hjn, hk]
        · exact h4 j hkj (by omega)
      · by_cases hjn : j = n
        · rw [hjn, hk]
        · exact ih.2 hno j (by omega)
    · simp only [if_true]
      refine ⟨fun b hb => ⟨n, by omega, hk, by simpa using hb.symm, fun j h1 h2 => by omega⟩, fun h => by simp at h⟩

/-- With no key down the scan finds none (R243). -/
theorem scanKeys_none {s : State} (h : ∀ j, j < 16 → s.keyDown j = false) : scanKeys s = none := by
  cases hs : scanKeys s with
  | none => rfl
  | some b =>
    obtain ⟨k, hk, hd, -⟩ := (scan_spec s 16).1 b hs
    rw [h k hk] at hd
    cases hd

/-- The highest key that is down is the scan's result (R243, conflict C2). -/
theorem scanKeys_highest {s : State} {k : Nat} (hk : k < 16) (hd : s.keyDown k = true)
    (hh : ∀ j, k < j → j < 16 → s.keyDown j = false) : scanKeys s = some (BitVec.ofNat 8 k) := by
  cases hs : scanKeys s with
  | none =>
    have := (scan_spec s 16).2 hs k hk
    rw [hd] at this
    cases this
  | some b =>
    obtain ⟨j, hj, hdj, rfl, hhj⟩ := (scan_spec s 16).1 b hs
    have : j = k := by
      rcases Nat.lt_trichotomy j k with h | h | h
      · have := hhj k h hk
        rw [hd] at this; cases this
      · exact h
      · have := hh j h hj
        rw [hdj] at this; cases this
    rw [this]

end Sys2Proof.Machine
end

