-- ==== Sys2Proof/Laws/Sprite.lean ====
section
/-! SUPPORT. What the loops of Dxyn draw: every pixel of the screen after any number of columns and rows. -/

namespace Sys2Proof.Machine

theorem pixelIndex_lt {px py : Nat} (hx : px < 64) (hy : py < 32) : pixelIndex px py < 2048 := by
  simp only [pixelIndex, Config.dispW]; omega

theorem pixelIndex_inj {px py qx qy : Nat} (hx : px < 64) (hq : qx < 64) :
    pixelIndex px py = pixelIndex qx qy ↔ px = qx ∧ py = qy := by
  simp only [pixelIndex, Config.dispW]; omega

/-- Column c of a row is set and inside the screen. -/
abbrev bitShows (ox oy r : Nat) (row : Byte) (c : Nat) : Prop :=
  row.getLsbD (7 - c) = true ∧ ox + c < 64 ∧ oy + r < 32

/-- One bit: its pixel flips if it shows, VF is 1 if that pixel was on, nothing else changes (R120, R121). -/
theorem drawBit_spec (ox oy r : Nat) (row : Byte) (s : State) (c : Nat) :
    (∀ px py, px < 64 → ((drawBit ox oy r row s c).pixel px py =
      (s.pixel px py ^^ decide (px = ox + c ∧ py = oy + r ∧ row.getLsbD (7 - c) = true ∧ px < 64 ∧ py < 32)))) ∧
    (∀ q, (drawBit ox oy r row s c).getV q =
      if q = regF ∧ bitShows ox oy r row c ∧ s.pixel (ox + c) (oy + r) = true then 1 else s.getV q) ∧
    drawBit ox oy r row s c =
      { s with disp := (drawBit ox oy r row s c).disp, v := (drawBit ox oy r row s c).v } := by
  unfold drawBit
  by_cases hb : row.getLsbD (7 - c) = true ∧ ox + c < Config.dispW ∧ oy + r < Config.dispH
  · obtain ⟨h1, h2, h3⟩ := hb
    have h2' : ox + c < 64 := h2
    have h3' : oy + r < 32 := h3
    rw [if_pos ⟨h1, h2, h3⟩]
    refine ⟨fun px py hx => ?_, fun q => ?_, ?_⟩
    · have hd : ((if s.disp.bitAt (pixelIndex (ox + c) (oy + r)) then writeFlag 1 s else s).disp) = s.disp := by
        split <;> rfl
      simp only [State.pixel, State.flipDisp_disp, hd]
      rw [Display.bitAt_flip _ (pixelIndex_lt h2' h3')]
      congr 1
      have := pixelIndex_inj (py := oy + r) (qy := py) h2' hx
      simp only [this]
      by_cases hp : px = ox + c ∧ py = oy + r
      · obtain ⟨rfl, rfl⟩ := hp
        simp [h1, h2', h3']
      · have h4 : ¬ (ox + c = px ∧ oy + r = py) := fun h => hp ⟨h.1.symm, h.2.symm⟩
        have h5 : ¬ (px = ox + c ∧ py = oy + r ∧ row.getLsbD (7 - c) = true ∧ px < 64 ∧ py < 32) :=
          fun h => hp ⟨h.1, h.2.1⟩
        rw [decide_eq_false h4, decide_eq_false h5]
    · have hs : bitShows ox oy r row c := ⟨h1, h2', h3'⟩
      simp only [State.getV_flipDisp, State.pixel]
      by_cases hp : s.disp.bitAt (pixelIndex (ox + c) (oy + r)) = true
      · simp [hp, writeFlag, and_iff_left hs]
      · simp [hp]
    · by_cases hp : s.disp.bitAt (pixelIndex (ox + c) (oy + r)) = true
      · simp only [hp, if_true]; rfl
      · simp only [hp]; rfl
  · rw [if_neg hb]
    have hs : ¬ bitShows ox oy r row c := hb
    refine ⟨fun px py hx => ?_, fun q => (if_neg fun h => hs h.2.1).symm, rfl⟩
    have : ¬ (px = ox + c ∧ py = oy + r ∧ row.getLsbD (7 - c) = true ∧ px < 64 ∧ py < 32) := by
      rintro ⟨rfl, rfl, h1, h2, h3⟩
      exact hb ⟨h1, h2, h3⟩
    rw [decide_eq_false this, Bool.xor_false]

/-- The first n columns of a row. -/
theorem drawBits_spec (ox oy r : Nat) (row : Byte) (s : State) (n : Nat) :
    (∀ px py, px < 64 → (((List.range n).foldl (drawBit ox oy r row) s).pixel px py =
      (s.pixel px py ^^ decide (ox ≤ px ∧ px < ox + n ∧ py = oy + r ∧ row.getLsbD (7 - (px - ox)) = true ∧ py < 32)))) ∧
    (∀ q, (q ≠ regF → ((List.range n).foldl (drawBit ox oy r row) s).getV q = s.getV q)) ∧
    ((∃ c, c < n ∧ bitShows ox oy r row c ∧ s.pixel (ox + c) (oy + r) = true) →
      ((List.range n).foldl (drawBit ox oy r row) s).getV regF = 1) ∧
    (¬ (∃ c, c < n ∧ bitShows ox oy r row c ∧ s.pixel (ox + c) (oy + r) = true) →
      ((List.range n).foldl (drawBit ox oy r row) s).getV regF = s.getV regF) ∧
    (List.range n).foldl (drawBit ox oy r row) s =
      { s with disp := ((List.range n).foldl (drawBit ox oy r row) s).disp,
               v := ((List.range n).foldl (drawBit ox oy r row) s).v } := by
  induction n with
  | zero =>
    refine ⟨fun px py _ => ?_, fun q _ => rfl, ?_, fun _ => rfl, rfl⟩
    · have : ¬ (ox ≤ px ∧ px < ox + 0 ∧ py = oy + r ∧ row.getLsbD (7 - (px - ox)) = true ∧ py < 32) := by omega
      rw [decide_eq_false this, Bool.xor_false]; rfl
    · rintro ⟨c, hc, -⟩; omega
  | succ n ih =>
    obtain ⟨ihP, ihV, ih1, ih0, ihR⟩ := ih
    rw [List.range_succ, List.foldl_append, List.foldl_cons, List.foldl_nil]
    generalize (List.range n).foldl (drawBit ox oy r row) s = t at ihP ihV ih1 ih0 ihR
    obtain ⟨hP, hV, hR⟩ := drawBit_spec ox oy r row t n
    have same : ox + n < 64 → t.pixel (ox + n) (oy + r) = s.pixel (ox + n) (oy + r) := fun h => by
      rw [ihP _ _ h]
      have : ¬ (ox ≤ ox + n ∧ ox + n < ox + n ∧ oy + r = oy + r ∧
        row.getLsbD (7 - (ox + n - ox)) = true ∧ oy + r < 32) := by omega
      rw [decide_eq_false this, Bool.xor_false]
    refine ⟨fun px py hx => ?_, fun q hq => ?_, ?_, ?_, ?_⟩
    · rw [hP px py hx, ihP px py hx, Bool.xor_assoc]
      congr 1
      by_cases hpn : px = ox + n
      · subst hpn
        have h1 : ¬ (ox ≤ ox + n ∧ ox + n < ox + n ∧ py = oy + r ∧
          row.getLsbD (7 - (ox + n - ox)) = true ∧ py < 32) := by omega
        rw [decide_eq_false h1, Bool.false_xor]
        congr 1
        rw [Nat.add_sub_cancel_left, eq_iff_iff]
        constructor
        · rintro ⟨-, h2, h3, -, h4⟩; exact ⟨by omega, by omega, h2, h3, h4⟩
        · rintro ⟨-, -, h2, h3, h4⟩; exact ⟨rfl, h2, h3, hx, h4⟩
      · have h1 : ¬ (px = ox + n ∧ py = oy + r ∧ row.getLsbD (7 - n) = true ∧ px < 64 ∧ py < 32) := fun h => hpn h.1
        rw [decide_eq_false h1, Bool.xor_false]
        congr 1
        simp only [eq_iff_iff]
        constructor
        · rintro ⟨h2, h3, h4⟩; exact ⟨h2, by omega, h4⟩
        · rintro ⟨h2, h3, h4⟩; exact ⟨h2, by omega, h4⟩
    · rw [hV q, if_neg (fun h => hq h.1), ihV q hq]
    · rintro ⟨c, hc, hs, hp⟩
      rw [hV]
      split
      · rfl
      · next hno =>
        by_cases hcn : c = n
        · subst hcn
          exact absurd ⟨rfl, hs, by rw [same hs.2.1]; exact hp⟩ hno
        · exact ih1 ⟨c, by omega, hs, hp⟩
    · intro hno
      rw [hV, if_neg, ih0]
      · rintro ⟨c, hc, h⟩; exact hno ⟨c, by omega, h⟩
      · rintro ⟨-, hs, hp⟩
        exact hno ⟨n, by omega, hs, by rw [← same hs.2.1]; exact hp⟩
    · rw [hR, ihR]

/-- A row is its eight bits, from the state the read leaves (R65, R123). -/
theorem drawRow_eq (ox oy : Nat) (s : State) (r : Nat) :
    drawRow ox oy s r = (List.range 8).foldl (drawBit ox oy r (spriteRow s r))
      (if indexPlus s r ≤ 0xFFF then s else s.raise .ar) := by
  unfold drawRow spriteRow
  by_cases h : indexPlus s r ≤ 0xFFF
  · simp only [memRead_in h, h, if_true]
  · simp only [memRead_out (Nat.lt_of_not_le h), h, if_false]

/-- A drawn sprite over s, its first n rows: the picture, the collision, AR, and nothing else (R120, R121, R123). -/
theorem drawRows_spec (ox oy : Nat) (s : State) (n : Nat) :
    (∀ px py, px < 64 → py < 32 → (((List.range n).foldl (drawRow ox oy) s).pixel px py = true ↔
      ((s.pixel px py = true ∧ ¬ spriteCovers s n ox oy px py) ∨
       (¬ s.pixel px py = true ∧ spriteCovers s n ox oy px py)))) ∧
    (∀ q, q ≠ regF → ((List.range n).foldl (drawRow ox oy) s).getV q = s.getV q) ∧
    ((∃ px py, px < 64 ∧ py < 32 ∧ spriteCovers s n ox oy px py ∧ s.pixel px py = true) →
      ((List.range n).foldl (drawRow ox oy) s).getV regF = 1) ∧
    (¬ (∃ px py, px < 64 ∧ py < 32 ∧ spriteCovers s n ox oy px py ∧ s.pixel px py = true) →
      ((List.range n).foldl (drawRow ox oy) s).getV regF = s.getV regF) ∧
    ((List.range n).foldl (drawRow ox oy) s).fault =
      (if n = 0 ∨ indexPlus s (n - 1) ≤ 0xFFF then s.fault else s.fault ||| FaultBit.ar.mask) ∧
    (List.range n).foldl (drawRow ox oy) s =
      { s with disp := ((List.range n).foldl (drawRow ox oy) s).disp,
               v := ((List.range n).foldl (drawRow ox oy) s).v,
               fault := ((List.range n).foldl (drawRow ox oy) s).fault } := by
  induction n with
  | zero =>
    have hc : ∀ px py, ¬ spriteCovers s 0 ox oy px py := fun px py h => by
      obtain ⟨h1, h2, -⟩ := h; omega
    refine ⟨fun px py _ _ => by simp [hc], fun q _ => rfl, ?_, fun _ => rfl, by simp, rfl⟩
    rintro ⟨px, py, -, -, h, -⟩
    exact absurd h (hc px py)
  | succ n ih =>
    obtain ⟨ihP, ihV, ih1, ih0, ihF, ihR⟩ := ih
    rw [List.range_succ, List.foldl_append, List.foldl_cons, List.foldl_nil]
    generalize (List.range n).foldl (drawRow ox oy) s = t at ihP ihV ih1 ih0 ihF ihR
    have hI : ∀ k, indexPlus t k = indexPlus s k := fun k => by rw [ihR]; rfl
    have hS : ∀ k, spriteRow t k = spriteRow s k := fun k => by
      unfold spriteRow; rw [hI, ihR]; rfl
    rw [drawRow_eq, hI, hS]
    have hu : ∃ u : State, (if indexPlus s n ≤ 0xFFF then t else t.raise .ar) = u ∧ (∀ px py, u.pixel px py = t.pixel px py) ∧
        (∀ q, u.getV q = t.getV q) ∧
        u.fault = (if indexPlus s n ≤ 0xFFF then t.fault else t.fault ||| FaultBit.ar.mask) ∧
        u = { t with fault := u.fault } := by
      by_cases h : indexPlus s n ≤ 0xFFF
      · simp only [h, if_true]
        exact ⟨t, rfl, fun _ _ => rfl, fun _ => rfl, rfl, rfl⟩
      · simp only [h, if_false]
        exact ⟨t.raise .ar, rfl, fun _ _ => rfl, fun _ => rfl, rfl, rfl⟩
    obtain ⟨u, hu, uP, uV, uF, uR⟩ := hu
    rw [hu]
    obtain ⟨hP, hV, h1, h0, hR⟩ := drawBits_spec ox oy n (spriteRow s n) u 8
    -- the new row's pixels are at height oy + n only, where the earlier rows drew nothing
    have cov : ∀ px py, spriteCovers s (n + 1) ox oy px py ↔
        spriteCovers s n ox oy px py ∨
          (py = oy + n ∧ ox ≤ px ∧ px < ox + 8 ∧ (spriteRow s n).getLsbD (7 - (px - ox)) = true) := by
      intro px py
      unfold spriteCovers
      constructor
      · rintro ⟨h1, h2, h3, h4, h5⟩
        by_cases h : py = oy + n
        · subst h
          rw [Nat.add_sub_cancel_left] at h5
          exact .inr ⟨rfl, h3, h4, h5⟩
        · exact .inl ⟨h1, by omega, h3, h4, h5⟩
      · rintro (⟨h1, h2, h3⟩ | ⟨rfl, h3, h4, h5⟩)
        · exact ⟨h1, by omega, h3⟩
        · exact ⟨by omega, by omega, h3, h4, by rwa [Nat.add_sub_cancel_left]⟩
    have noEarlier : ∀ px, ¬ spriteCovers s n ox oy px (oy + n) := fun px h => by
      obtain ⟨-, h2, -⟩ := h; omega
    have tSame : ∀ px, px < 64 → oy + n < 32 → t.pixel px (oy + n) = s.pixel px (oy + n) := fun px hx hy => by
      have := ihP px (oy + n) hx hy
      simp only [noEarlier, not_false_eq_true, and_true, and_false, or_false] at this
      exact Bool.eq_iff_iff.mpr this
    refine ⟨fun px py hx hy => ?_, fun q hq => ?_, ?_, ?_, ?_, ?_⟩
    · rw [hP px py hx, uP, cov]
      by_cases hrow : py = oy + n
      · subst hrow
        rw [tSame px hx hy]
        simp only [noEarlier, false_or, true_and, hy, and_true]
        by_cases hb : ox ≤ px ∧ px < ox + 8 ∧ (spriteRow s n).getLsbD (7 - (px - ox)) = true
        · simp [hb]
        · simp [hb]
      · have hb : ¬ (ox ≤ px ∧ px < ox + 8 ∧ py = oy + n ∧ (spriteRow s n).getLsbD (7 - (px - ox)) = true ∧ py < 32) :=
          fun h => hrow h.2.2.1
        rw [decide_eq_false hb, Bool.xor_false, ihP px py hx hy]
        simp only [hrow, false_and, or_false]
    · rw [hV q hq, uV, ihV q hq]
    · rintro ⟨px, py, hx, hy, hc, hp⟩
      by_cases hnew : ∃ c, c < 8 ∧ bitShows ox oy n (spriteRow s n) c ∧ u.pixel (ox + c) (oy + n) = true
      · exact h1 hnew
      · rw [h0 hnew, uV]
        apply ih1
        rcases (cov px py).mp hc with hc | ⟨rfl, h2, h3, h4⟩
        · exact ⟨px, py, hx, hy, hc, hp⟩
        · refine absurd ⟨px - ox, by omega, ⟨h4, by omega, hy⟩, ?_⟩ hnew
          rw [Nat.add_sub_cancel' h2, uP, tSame px hx hy, hp]
    · intro hno
      have hnew : ¬ ∃ c, c < 8 ∧ bitShows ox oy n (spriteRow s n) c ∧ u.pixel (ox + c) (oy + n) = true := by
        rintro ⟨c, hc, ⟨hb, hx, hy⟩, hp⟩
        refine hno ⟨ox + c, oy + n, hx, hy, (cov _ _).mpr (.inr ⟨rfl, by omega, by omega, ?_⟩), ?_⟩
        · rwa [Nat.add_sub_cancel_left]
        · rw [← tSame _ hx hy, ← uP, hp]
      rw [h0 hnew, uV]
      refine ih0 ?_
      rintro ⟨px, py, hx, hy, hc, hp⟩
      exact hno ⟨px, py, hx, hy, (cov px py).mpr (.inl hc), hp⟩
    · rw [hR]
      show u.fault = _
      rw [uF, ihF]
      simp only [indexPlus, Nat.add_one_sub_one, Nat.succ_ne_zero, false_or]
      exact fault_ascending ..
    · rw [hR, uR, ihR]

end Sys2Proof.Machine
end

