-- ==== Sys2Proof/Laws/Exec.lean ====
section
/-! SUPPORT. The meanings that branch, branch by branch, so that no proof unfolds one; and that every meaning answers a
next state. -/

namespace Sys2Proof.Machine

/-- RET on an empty stack (R140). -/
theorem execRet_empty {s : State} (h : s.sp = 0) : execRet s = .next (s.raise .su) := by
  simp only [execRet, pop_empty s h]

/-- RET with an entry (R140). -/
theorem execRet_entry {s : State} (h : 0 < s.sp) :
    execRet s = .next { s with pc := s.stackAt (s.sp - 1), sp := s.sp - 1 } := by
  simp only [execRet, pop_ok s h]
  rfl

/-- CALL on a full stack (R142). -/
theorem execCall_full {s : State} (nnn : Addr12) (h : s.sp = s.stackDepth) : execCall nnn s = .next (s.raise .so) := by
  simp only [execCall, push_full s.pc s h]

/-- CALL on a stack that is not full (R142). -/
theorem execCall_room {s : State} (nnn : Addr12) (h : s.sp ≠ s.stackDepth) :
    execCall nnn s = .next { s with pc := addrOperand nnn, stack := s.stack.set s.sp s.pc, sp := s.sp + 1 } := by
  simp only [execCall, push_ok s.pc s h]
  rfl

/-- Fx0A with no key down (R243). -/
theorem execLdVxK_none {s : State} (x : RegIdx) (h : scanKeys s = none) : execLdVxK x s = .next (s.setPc (s.pc - 2)) := by
  simp only [execLdVxK, h]

/-- Fx0A with a key (R243). -/
theorem execLdVxK_some {s : State} {b : Byte} (x : RegIdx) (h : scanKeys s = some b) :
    execLdVxK x s = .next (s.setV x b) := by
  simp only [execLdVxK, h]

/-- No meaning stops: the block has no traps (R270). -/
theorem exec_next (i : Instr) (s : State) : ∃ t, exec i s = .next t := by
  cases i with
  | ret =>
    rcases Nat.eq_zero_or_pos s.sp with h | h
    · exact ⟨_, execRet_empty h⟩
    · exact ⟨_, execRet_entry h⟩
  | call nnn =>
    by_cases h : s.sp = s.stackDepth
    · exact ⟨_, execCall_full nnn h⟩
    · exact ⟨_, execCall_room nnn h⟩
  | ldVxK x =>
    cases h : scanKeys s with
    | none => exact ⟨_, execLdVxK_none x h⟩
    | some b => exact ⟨_, execLdVxK_some x h⟩
  | _ => exact ⟨_, rfl⟩

/-- No STEP stops (R270). -/
theorem step_next (s : State) : ∃ t, step s = .next t := by
  rcases step_cases s with ⟨_, h⟩ | ⟨_, h⟩ <;> rw [h]
  · exact ⟨_, rfl⟩
  · exact exec_next _ _

/-- Two bytes, high first. -/
theorem toNat_wordOfBytes (hi lo : Byte) : (wordOfBytes hi lo).toNat = hi.toNat * 256 + lo.toNat := by
  have := lo.isLt
  show (hi ++ lo).toNat = _
  rw [BitVec.toNat_append, ← Nat.shiftLeft_add_eq_or_of_lt this, Nat.shiftLeft_eq]

/-! ### The meanings that loop -/

/-- DRW: AR, and what it leaves alone; the picture is `drawRows_spec` (R123). -/
theorem execDrw_spec (x y : RegIdx) (n : Nibble) (s : State) :
    ∃ t, execDrw x y n s = .next t ∧
      t = ((List.range n.toNat).foldl (drawRow ((s.getV x).toNat % 64) ((s.getV y).toNat % 32))
        (writeFlag 0 s)).setRedraw true ∧
      t.fault = (if n.toNat = 0 ∨ indexPlus s (n.toNat - 1) ≤ 0xFFF then s.fault else s.fault ||| FaultBit.ar.mask) ∧
      (∀ q, q ≠ regF → t.getV q = s.getV q) ∧
      t = { s with disp := t.disp, v := t.v, fault := t.fault, redraw := true } := by
  obtain ⟨-, hV, -, -, hF, hR⟩ :=
    drawRows_spec ((s.getV x).toNat % 64) ((s.getV y).toNat % 32) (writeFlag 0 s) n.toNat
  refine ⟨_, rfl, rfl, hF, fun q hq => ?_, ?_⟩
  · show ((List.range n.toNat).foldl (drawRow ((s.getV x).toNat % 64) ((s.getV y).toNat % 32)) (writeFlag 0 s)).getV q = _
    rw [hV q hq]
    simp [writeFlag, hq]
  · show State.setRedraw ((List.range n.toNat).foldl (drawRow ((s.getV x).toNat % 64) ((s.getV y).toNat % 32))
      (writeFlag 0 s)) true = _
    rw [hR]
    rfl

/-- Fx33: the three bytes, AR, and what it leaves alone (R213). -/
theorem execLdB_spec (x : RegIdx) (s : State) :
    ∃ t, execLdB x s = .next t ∧
      (∀ a, t.peek a =
        if a = indexPlus s 2 ∧ indexPlus s 2 ≤ 0xFFF then ones (s.getV x)
        else if a = indexPlus s 1 ∧ indexPlus s 1 ≤ 0xFFF then tens (s.getV x)
        else if a = indexPlus s 0 ∧ indexPlus s 0 ≤ 0xFFF then hundreds (s.getV x) else s.peek a) ∧
      t.fault = (if indexPlus s 2 ≤ 0xFFF then s.fault else s.fault ||| FaultBit.ar.mask) ∧
      t = { s with mem := t.mem, fault := t.fault } := by
  have hI : ∀ ea b u k, indexPlus (memWrite ea b u) k = indexPlus u k := fun ea b u k => by rw [memWrite_rest]; rfl
  refine ⟨_, rfl, fun a => ?_, ?_, ?_⟩
  · simp only [hI, memWrite_peek]
  · simp only [hI, memWrite_fault]
    simp only [indexPlus]
    by_cases h2 : s.i.toNat + 2 ≤ 0xFFF
    · have h1 : s.i.toNat + 1 ≤ 0xFFF := by omega
      have h0 : s.i.toNat + 0 ≤ 0xFFF := by omega
      simp only [h0, h1, h2, if_true]
    · by_cases h1 : s.i.toNat + 1 ≤ 0xFFF <;> by_cases h0 : s.i.toNat + 0 ≤ 0xFFF <;>
        simp only [h0, h1, h2, if_true, if_false, BitVec.or_assoc, BitVec.or_self]
  · rw [memWrite_rest, memWrite_rest (indexPlus _ 1), memWrite_rest (indexPlus s 0)]

end Sys2Proof.Machine
end

