-- ==== Sys2Proof/Laws/Frame.lean ====
section
/-! SUPPORT. Frames: the empty one, how they compose and widen, and the frame of each state update. -/

namespace Sys2Proof.Machine

theorem Frame.refl (w : Writes) (s : State) : Frame w s s :=
  ⟨fun _ _ => rfl, fun _ _ => rfl, fun _ _ => rfl, fun _ => rfl, fun _ => rfl, fun _ => ⟨rfl, rfl⟩, fun _ => rfl,
    fun _ => rfl, fun _ => ⟨rfl, rfl⟩, rfl, rfl, fun _ => ⟨rfl, rfl⟩⟩

theorem Frame.trans {w : Writes} {s t u : State} (h : Frame w s t) (k : Frame w t u) : Frame w s u where
  regs r hr := (k.regs r hr).trans (h.regs r hr)
  bytes a ha := (k.bytes a ha).trans (h.bytes a ha)
  faults n hn := (k.faults n hn).trans (h.faults n hn)
  index e := (k.index e).trans (h.index e)
  pc e := (k.pc e).trans (h.pc e)
  stack e := ⟨(k.stack e).1.trans (h.stack e).1, (k.stack e).2.trans (h.stack e).2⟩
  delay e := (k.delay e).trans (h.delay e)
  sound e := (k.sound e).trans (h.sound e)
  display e := ⟨(k.display e).1.trans (h.display e).1, (k.display e).2.trans (h.display e).2⟩
  keys := k.keys.trans h.keys
  params := k.params.trans h.params
  random e := ⟨(k.random e).1.trans (h.random e).1, (k.random e).2.trans (h.random e).2⟩

/-- A write of one register is framed by any set that holds it. -/
theorem Frame.setV {w : Writes} {r : RegIdx} (hr : w.regs r) (s : State) (b : Byte) : Frame w s (s.setV r b) :=
  { Frame.refl w s with
    regs := fun q hq => by
      rw [State.getV_setV, if_neg]
      rintro rfl
      exact hq hr }

/-- A raised bit is framed by any set that holds it. -/
theorem Frame.raise {w : Writes} {b : FaultBit} (hb : w.faults b) (s : State) : Frame w s (s.raise b) :=
  { Frame.refl w s with
    faults := fun n hn => by
      rw [State.raise_bit, decide_eq_false (fun e => hn b hb e.symm), Bool.or_false] }

/-- A written byte is framed by any set of addresses that holds it. -/
theorem Frame.poke {w : Writes} {a : Nat} (ha : w.bytes a) (s : State) (b : Byte) : Frame w s (s.poke a b) :=
  { Frame.refl w s with
    bytes := fun c hc => by
      rw [State.peek_poke, if_neg]
      rintro rfl
      exact hc ha }

/-- A range-checked write is framed by its address, if that exists, and AR. -/
theorem Frame.memWrite {w : Writes} {ea : Nat} (ha : ea ≤ 0xFFF → w.bytes ea) (hb : w.faults .ar) (b : Byte) (s : State) :
    Frame w s (memWrite ea b s) := by
  by_cases h : ea ≤ 0xFFF
  · rw [memWrite_in h]; exact Frame.poke (ha h) s b
  · rw [memWrite_out (Nat.lt_of_not_le h)]; exact Frame.raise hb s

/-- A skip is framed by PC. -/
theorem Frame.skipIf {w : Writes} (hw : w.pc = true) (c : Bool) (s : State) : Frame w s (skipIf c s) := by
  cases c
  · exact Frame.refl w s
  · exact { Frame.refl w s with pc := fun e => by rw [hw] at e; cases e }

/-- A jump is framed by PC. -/
theorem Frame.setPc {w : Writes} (hw : w.pc = true) (s : State) (p : Word) : Frame w s (s.setPc p) :=
  { Frame.refl w s with pc := fun e => by rw [hw] at e; cases e }

/-- A new I is framed by the index. -/
theorem Frame.setI {w : Writes} (hw : w.index = true) (s : State) (p : Word) : Frame w s (s.setI p) :=
  { Frame.refl w s with index := fun e => by rw [hw] at e; cases e }

end Sys2Proof.Machine
end

