-- ==== Sys2Proof/Laws/PerInstr.lean ====
section
/-! SUPPORT. Facts stated once per instruction, as syntax. Family RowMatch: the word of a well-formed instruction matches
its own row of R97, and the word of an ignored one matches no row (spec/30_encoding.md R97, R99). -/

namespace Sys2Proof.Laws

open Sys2Proof.Machine

/-- No row of R97 matches the word. -/
def matchesNoRow (w : Word) : Prop := ∀ row ∈ opcodeRows, w &&& row.1 ≠ row.2

/-- A word of a family whose sub-code is not listed matches no row; the four families with a sub-dispatch key (R96). -/
theorem matchesNoRow_of_fields {w : Word}
    (hf : fieldFamily w = 0x0 ∨ fieldFamily w = 0x8 ∨ fieldFamily w = 0xE ∨ fieldFamily w = 0xF)
    (h0 : fieldFamily w = 0x0 → fieldKk w ∉ subCodes0) (h8 : fieldFamily w = 0x8 → fieldN w ∉ subCodes8)
    (hE : fieldFamily w = 0xE → fieldKk w ∉ subCodesE) (hF : fieldFamily w = 0xF → fieldKk w ∉ subCodesF) :
    matchesNoRow w := by
  have nib : ∀ f : Nibble, f ∉ [0x0#4, 0x8#4, 0xE#4, 0xF#4] → ¬ w &&& 0xF000#16 = word4 f 0 0 0 := fun f hn h => by
    rw [and_F000] at h
    simp only [List.mem_cons, List.not_mem_nil, or_false, not_or] at hn
    rcases hf with e | e | e | e <;> rw [h] at e <;> simp_all
  have low : ∀ f c d : Nibble, (fieldFamily w = f → fieldKk w ≠ c ++ d) → ¬ w &&& 0xF0FF#16 = word4 f 0 c d :=
    fun f c d hn h => by
      rw [and_F0FF] at h
      exact hn h.1 h.2
  have alu : ∀ d : Nibble, d ∈ subCodes8 → ¬ w &&& 0xF00F#16 = word4 0x8 0 0 d := fun d hd h => by
    rw [and_F00F] at h
    exact h8 h.1 (h.2 ▸ hd)
  have l0 : ∀ c d : Nibble, (c ++ d : Byte) ∈ subCodes0 → ¬ w &&& 0xF0FF#16 = word4 0x0 0 c d :=
    fun c d hm => low 0x0 c d fun e h => h0 e (h ▸ hm)
  have lE : ∀ c d : Nibble, (c ++ d : Byte) ∈ subCodesE → ¬ w &&& 0xF0FF#16 = word4 0xE 0 c d :=
    fun c d hm => low 0xE c d fun e h => hE e (h ▸ hm)
  have lF : ∀ c d : Nibble, (c ++ d : Byte) ∈ subCodesF → ¬ w &&& 0xF0FF#16 = word4 0xF 0 c d :=
    fun c d hm => low 0xF c d fun e h => hF e (h ▸ hm)
  intro row hrow
  simp only [opcodeRows, rowInstrs, List.cons_append, List.nil_append, List.filterMap_cons, opcodeRow,
    List.filterMap_nil, List.mem_cons, List.not_mem_nil, or_false] at hrow
  rcases hrow with rfl | rfl | rfl | rfl | rfl | rfl | rfl | rfl | rfl | rfl | rfl | rfl | rfl | rfl | rfl | rfl | rfl |
    rfl | rfl | rfl | rfl | rfl | rfl | rfl | rfl | rfl | rfl | rfl | rfl | rfl | rfl | rfl | rfl | rfl
  · exact l0 0xE 0x0 (by decide)
  · exact l0 0xE 0xE (by decide)
  · exact nib 0x1 (by decide)
  · exact nib 0x2 (by decide)
  · exact nib 0x3 (by decide)
  · exact nib 0x4 (by decide)
  · exact nib 0x5 (by decide)
  · exact nib 0x6 (by decide)
  · exact nib 0x7 (by decide)
  · exact alu 0x0 (by decide)
  · exact alu 0x1 (by decide)
  · exact alu 0x2 (by decide)
  · exact alu 0x3 (by decide)
  · exact alu 0x4 (by decide)
  · exact alu 0x5 (by decide)
  · exact alu 0x6 (by decide)
  · exact alu 0x7 (by decide)
  · exact alu 0xE (by decide)
  · exact nib 0x9 (by decide)
  · exact nib 0xA (by decide)
  · exact nib 0xB (by decide)
  · exact nib 0xC (by decide)
  · exact nib 0xD (by decide)
  · exact lE 0x9 0xE (by decide)
  · exact lE 0xA 0x1 (by decide)
  · exact lF 0x0 0x7 (by decide)
  · exact lF 0x0 0xA (by decide)
  · exact lF 0x1 0x5 (by decide)
  · exact lF 0x1 0x8 (by decide)
  · exact lF 0x1 0xE (by decide)
  · exact lF 0x2 0x9 (by decide)
  · exact lF 0x3 0x3 (by decide)
  · exact lF 0x5 0x5 (by decide)
  · exact lF 0x6 0x5 (by decide)

namespace RowMatch

/-- The encoding of a well-formed instruction matches its own row, or no row if it is an ignored word. -/
def Statement (i : Instr) : Prop :=
  i.wf = true →
    match opcodeRow i with
    | some row => encode i &&& row.1 = row.2
    | none => matchesNoRow (encode i)

section
variable (x y : RegIdx) (kk : Byte) (n : Nibble) (nnn low : Addr12)

theorem cls : Statement .cls := fun _ => (and_F0FF _ 0x0 0xE 0x0).mpr (by simp [encode])
theorem ret : Statement .ret := fun _ => (and_F0FF _ 0x0 0xE 0xE).mpr (by simp [encode])
theorem jp : Statement (.jp nnn) := fun _ => (and_F000 _ 0x1).mpr (by simp [encode])
theorem call : Statement (.call nnn) := fun _ => (and_F000 _ 0x2).mpr (by simp [encode])
theorem seImm : Statement (.seImm x kk) := fun _ => (and_F000 _ 0x3).mpr (by simp [encode])
theorem sneImm : Statement (.sneImm x kk) := fun _ => (and_F000 _ 0x4).mpr (by simp [encode])
theorem seReg : Statement (.seReg x y) := fun _ => (and_F000 _ 0x5).mpr (by simp [encode])
theorem ldImm : Statement (.ldImm x kk) := fun _ => (and_F000 _ 0x6).mpr (by simp [encode])
theorem addImm : Statement (.addImm x kk) := fun _ => (and_F000 _ 0x7).mpr (by simp [encode])
theorem ldReg : Statement (.ldReg x y) := fun _ => (and_F00F _ 0x8 0x0).mpr (by simp [encode])
theorem orReg : Statement (.orReg x y) := fun _ => (and_F00F _ 0x8 0x1).mpr (by simp [encode])
theorem andReg : Statement (.andReg x y) := fun _ => (and_F00F _ 0x8 0x2).mpr (by simp [encode])
theorem xorReg : Statement (.xorReg x y) := fun _ => (and_F00F _ 0x8 0x3).mpr (by simp [encode])
theorem addReg : Statement (.addReg x y) := fun _ => (and_F00F _ 0x8 0x4).mpr (by simp [encode])
theorem subReg : Statement (.subReg x y) := fun _ => (and_F00F _ 0x8 0x5).mpr (by simp [encode])
theorem shr : Statement (.shr x) := fun _ => (and_F00F _ 0x8 0x6).mpr (by simp [encode])
theorem subnReg : Statement (.subnReg x y) := fun _ => (and_F00F _ 0x8 0x7).mpr (by simp [encode])
theorem shl : Statement (.shl x) := fun _ => (and_F00F _ 0x8 0xE).mpr (by simp [encode])
theorem sneReg : Statement (.sneReg x y) := fun _ => (and_F000 _ 0x9).mpr (by simp [encode])
theorem ldI : Statement (.ldI nnn) := fun _ => (and_F000 _ 0xA).mpr (by simp [encode])
theorem jpV0 : Statement (.jpV0 nnn) := fun _ => (and_F000 _ 0xB).mpr (by simp [encode])
theorem rnd : Statement (.rnd x kk) := fun _ => (and_F000 _ 0xC).mpr (by simp [encode])
theorem drw : Statement (.drw x y n) := fun _ => (and_F000 _ 0xD).mpr (by simp [encode])
theorem skp : Statement (.skp x) := fun _ => (and_F0FF _ 0xE 0x9 0xE).mpr (by simp [encode])
theorem sknp : Statement (.sknp x) := fun _ => (and_F0FF _ 0xE 0xA 0x1).mpr (by simp [encode])
theorem ldVxDt : Statement (.ldVxDt x) := fun _ => (and_F0FF _ 0xF 0x0 0x7).mpr (by simp [encode])
theorem ldVxK : Statement (.ldVxK x) := fun _ => (and_F0FF _ 0xF 0x0 0xA).mpr (by simp [encode])
theorem ldDtVx : Statement (.ldDtVx x) := fun _ => (and_F0FF _ 0xF 0x1 0x5).mpr (by simp [encode])
theorem ldStVx : Statement (.ldStVx x) := fun _ => (and_F0FF _ 0xF 0x1 0x8).mpr (by simp [encode])
theorem addI : Statement (.addI x) := fun _ => (and_F0FF _ 0xF 0x1 0xE).mpr (by simp [encode])
theorem ldF : Statement (.ldF x) := fun _ => (and_F0FF _ 0xF 0x2 0x9).mpr (by simp [encode])
theorem ldB : Statement (.ldB x) := fun _ => (and_F0FF _ 0xF 0x3 0x3).mpr (by simp [encode])
theorem storeRegs : Statement (.storeRegs x) := fun _ => (and_F0FF _ 0xF 0x5 0x5).mpr (by simp [encode])
theorem loadRegs : Statement (.loadRegs x) := fun _ => (and_F0FF _ 0xF 0x6 0x5).mpr (by simp [encode])

theorem ignored0 : Statement (.ignored0 low) := fun h => by
  have hm : low.extractLsb' 0 8 ∉ subCodes0 := by simpa [Instr.wf] using h
  exact matchesNoRow_of_fields (by simp [encode]) (by simpa [encode] using hm) (by simp [encode]) (by simp [encode])
    (by simp [encode])

theorem ignored8 : Statement (.ignored8 low) := fun h => by
  have hm : low.extractLsb' 0 4 ∉ subCodes8 := by simpa [Instr.wf] using h
  exact matchesNoRow_of_fields (by simp [encode]) (by simp [encode]) (by simpa [encode] using hm) (by simp [encode])
    (by simp [encode])

theorem ignoredE : Statement (.ignoredE low) := fun h => by
  have hm : low.extractLsb' 0 8 ∉ subCodesE := by simpa [Instr.wf] using h
  exact matchesNoRow_of_fields (by simp [encode]) (by simp [encode]) (by simp [encode]) (by simpa [encode] using hm)
    (by simp [encode])

theorem ignoredF : Statement (.ignoredF low) := fun h => by
  have hm : low.extractLsb' 0 8 ∉ subCodesF := by simpa [Instr.wf] using h
  exact matchesNoRow_of_fields (by simp [encode]) (by simp [encode]) (by simp [encode]) (by simp [encode])
    (by simpa [encode] using hm)

end

end RowMatch

end Sys2Proof.Laws
end

