-- ==== Sys2Proof/Tests/Slice0.lean ====
section
/-! SUPPORT. The model's own tests. Every expected value is the spec's: the vectors of spec/95_test_vectors.md, named by
their id, and the encodings of spec/30_encoding.md R97. After them, one witness for each statement with hypotheses. -/

namespace Sys2Proof.Machine

/-! ### Helpers -/

/-- The state after the STEP that runs `w` at PC. -/
def afterWord (s : State) (w : Word) : State :=
  match step (s.withFetchWord 16 w.toNat) with
  | .next t => t
  | .fault _ => s
  | .refused _ => s

/-- The reset state with V[x] = a and V[y] = b. -/
def withRegs (x : RegIdx) (a : Byte) (y : RegIdx) (b : Byte) : State := (State.reset.setV y b).setV x a

/-- V[x] and VF after the STEP that runs `w` from `withRegs`. -/
def resultAndFlag (x : RegIdx) (a : Byte) (y : RegIdx) (b : Byte) (w : Word) : Byte × Byte :=
  let t := afterWord (withRegs x a y b) w
  (t.getV x, t.getV regF)

/-- PC and FAULT. -/
def pcAndFault (s : State) : Word × Byte := (s.pc, s.fault)

/-! ### Well-formedness: each check refuses an ill-formed term (R99) -/

theorem test_wf_refuses_cls_as_ignored : (Instr.ignored0 0x1E0).wf = false := by decide
theorem test_wf_refuses_shr_as_ignored : (Instr.ignored8 0x126).wf = false := by decide
theorem test_wf_refuses_sknp_as_ignored : (Instr.ignoredE 0x3A1).wf = false := by decide
theorem test_wf_refuses_store_as_ignored : (Instr.ignoredF 0x255).wf = false := by decide
theorem test_wf_accepts_ignored : (Instr.ignored8 0x12F).wf = true := by decide

/-! ### Decoding: each constructor from a word written out from R97, nibble by nibble -/

theorem test_decode_family0 :
    decodeWord (0b0000#4 ++ 0b0000#4 ++ 0b1110#4 ++ 0b0000#4) = .cls ∧
    decodeWord (0b0000#4 ++ 0b0000#4 ++ 0b1110#4 ++ 0b1110#4) = .ret ∧
    decodeWord (0b0000#4 ++ 0b0001#4 ++ 0b0010#4 ++ 0b0011#4) = .ignored0 0x123 := by decide

theorem test_decode_addresses :
    decodeWord (0b0001#4 ++ 0b1010#4 ++ 0b1011#4 ++ 0b1100#4) = .jp 0xABC ∧
    decodeWord (0b0010#4 ++ 0b1010#4 ++ 0b1011#4 ++ 0b1100#4) = .call 0xABC ∧
    decodeWord (0b1010#4 ++ 0b0001#4 ++ 0b0010#4 ++ 0b0011#4) = .ldI 0x123 ∧
    decodeWord (0b1011#4 ++ 0b0001#4 ++ 0b0010#4 ++ 0b0011#4) = .jpV0 0x123 := by decide

theorem test_decode_immediates :
    decodeWord (0b0011#4 ++ 0b0010#4 ++ 0b0100#4 ++ 0b0001#4) = .seImm 2 0x41 ∧
    decodeWord (0b0100#4 ++ 0b0010#4 ++ 0b0100#4 ++ 0b0001#4) = .sneImm 2 0x41 ∧
    decodeWord (0b0110#4 ++ 0b1010#4 ++ 0b0100#4 ++ 0b0010#4) = .ldImm 10 0x42 ∧
    decodeWord (0b0111#4 ++ 0b1010#4 ++ 0b0100#4 ++ 0b0010#4) = .addImm 10 0x42 ∧
    decodeWord (0b1100#4 ++ 0b0011#4 ++ 0b0000#4 ++ 0b1111#4) = .rnd 3 0x0F := by decide

theorem test_decode_registers :
    decodeWord (0b0101#4 ++ 0b0011#4 ++ 0b0100#4 ++ 0b0111#4) = .seReg 3 4 ∧
    decodeWord (0b1001#4 ++ 0b0011#4 ++ 0b0100#4 ++ 0b0000#4) = .sneReg 3 4 ∧
    decodeWord (0b1101#4 ++ 0b0001#4 ++ 0b0010#4 ++ 0b0101#4) = .drw 1 2 5 := by decide

theorem test_decode_family8 :
    decodeWord (0b1000#4 ++ 0b0101#4 ++ 0b1010#4 ++ 0b0000#4) = .ldReg 5 10 ∧
    decodeWord (0b1000#4 ++ 0b0101#4 ++ 0b1010#4 ++ 0b0001#4) = .orReg 5 10 ∧
    decodeWord (0b1000#4 ++ 0b0101#4 ++ 0b1010#4 ++ 0b0010#4) = .andReg 5 10 ∧
    decodeWord (0b1000#4 ++ 0b0101#4 ++ 0b1010#4 ++ 0b0011#4) = .xorReg 5 10 ∧
    decodeWord (0b1000#4 ++ 0b0101#4 ++ 0b1010#4 ++ 0b0100#4) = .addReg 5 10 ∧
    decodeWord (0b1000#4 ++ 0b0101#4 ++ 0b1010#4 ++ 0b0101#4) = .subReg 5 10 ∧
    decodeWord (0b1000#4 ++ 0b0101#4 ++ 0b1010#4 ++ 0b0110#4) = .shr 5 ∧
    decodeWord (0b1000#4 ++ 0b0101#4 ++ 0b1010#4 ++ 0b0111#4) = .subnReg 5 10 ∧
    decodeWord (0b1000#4 ++ 0b0101#4 ++ 0b1010#4 ++ 0b1110#4) = .shl 5 ∧
    decodeWord (0b1000#4 ++ 0b0000#4 ++ 0b0000#4 ++ 0b1000#4) = .ignored8 0x008 := by decide

theorem test_decode_familyE :
    decodeWord (0b1110#4 ++ 0b0011#4 ++ 0b1001#4 ++ 0b1110#4) = .skp 3 ∧
    decodeWord (0b1110#4 ++ 0b0011#4 ++ 0b1010#4 ++ 0b0001#4) = .sknp 3 ∧
    decodeWord (0b1110#4 ++ 0b0000#4 ++ 0b1001#4 ++ 0b1111#4) = .ignoredE 0x09F := by decide

theorem test_decode_familyF :
    decodeWord (0b1111#4 ++ 0b0110#4 ++ 0b0000#4 ++ 0b0111#4) = .ldVxDt 6 ∧
    decodeWord (0b1111#4 ++ 0b0110#4 ++ 0b0000#4 ++ 0b1010#4) = .ldVxK 6 ∧
    decodeWord (0b1111#4 ++ 0b0110#4 ++ 0b0001#4 ++ 0b0101#4) = .ldDtVx 6 ∧
    decodeWord (0b1111#4 ++ 0b0110#4 ++ 0b0001#4 ++ 0b1000#4) = .ldStVx 6 ∧
    decodeWord (0b1111#4 ++ 0b0110#4 ++ 0b0001#4 ++ 0b1110#4) = .addI 6 ∧
    decodeWord (0b1111#4 ++ 0b0110#4 ++ 0b0010#4 ++ 0b1001#4) = .ldF 6 ∧
    decodeWord (0b1111#4 ++ 0b0110#4 ++ 0b0011#4 ++ 0b0011#4) = .ldB 6 ∧
    decodeWord (0b1111#4 ++ 0b0110#4 ++ 0b0101#4 ++ 0b0101#4) = .storeRegs 6 ∧
    decodeWord (0b1111#4 ++ 0b0110#4 ++ 0b0110#4 ++ 0b0101#4) = .loadRegs 6 ∧
    decodeWord (0b1111#4 ++ 0b0000#4 ++ 0b1111#4 ++ 0b1111#4) = .ignoredF 0x0FF := by decide

theorem test_decodeTableWord_padding : decodeTableWord 16 0xD125 = some (.drw 1 2 5) := by decide

/-! ### Control flow -/

theorem test_F1_ret : pcAndFault (afterWord { State.reset with sp := 1, stack := State.reset.stack.set 0 0x300 } 0x00EE) = (0x300, 0) := by
  decide
theorem test_F2_ret_empty : pcAndFault (afterWord State.reset 0x00EE) = (0x202, 0x01) := by decide
theorem test_F3_jp : pcAndFault (afterWord State.reset 0x1ABC) = (0xABC, 0) := by decide
theorem test_F6_call_full : pcAndFault (afterWord { State.reset with sp := 16 } 0x2400) = (0x202, 0x02) := by decide
theorem test_F7_call_last_slot :
    (afterWord { State.reset with sp := 15 } 0x2400).stackAt 15 = 0x202 ∧
    (afterWord { State.reset with sp := 15 } 0x2400).sp = 16 := by decide
theorem test_F8_F9_seImm : (afterWord (withRegs 2 0x42 0 0) 0x3242).pc = 0x204 ∧
    (afterWord (withRegs 2 0x41 0 0) 0x3242).pc = 0x202 := by decide
theorem test_F10_F11_sneImm : (afterWord (withRegs 2 0x41 0 0) 0x4242).pc = 0x204 ∧
    (afterWord (withRegs 2 0x42 0 0) 0x4242).pc = 0x202 := by decide
theorem test_F13_F14_seReg : (afterWord (withRegs 3 9 4 9) 0x5340).pc = 0x204 ∧
    (afterWord (withRegs 3 9 4 8) 0x5340).pc = 0x202 := by decide
theorem test_F16_F17_sneReg : (afterWord (withRegs 3 9 4 8) 0x9340).pc = 0x204 ∧
    (afterWord (withRegs 3 9 4 9) 0x9340).pc = 0x202 := by decide
theorem test_F19_jpV0 : (afterWord (withRegs 0 0xFF 1 0) 0xBFFF).pc = 0x10FE := by decide
theorem test_V1_ignored : pcAndFault (afterWord State.reset 0x0000) = (0x202, 0) := by decide
theorem test_V4_ignored : resultAndFlag 0 5 1 3 0x801F = (5, 0) := by decide

/-! ### ALU -/

theorem test_V14_ldImm : (afterWord State.reset 0x6011).getV 0 = 0x11 := by decide
theorem test_addImm_wraps_no_flag : resultAndFlag 0 0xFF 15 0x55 0x7002 = (0x01, 0x55) := by decide
theorem test_ldReg : resultAndFlag 0 1 1 2 0x8010 = (2, 0) := by decide
theorem test_orReg : resultAndFlag 0 0x0C 1 0x0A 0x8011 = (0x0E, 0) := by decide
theorem test_andReg : resultAndFlag 0 0x0C 1 0x0A 0x8012 = (0x08, 0) := by decide
theorem test_A8_xorReg : (afterWord (withRegs 0 0x55 1 0) 0x8003).getV 0 = 0 := by decide
theorem test_W3_addReg : resultAndFlag 0 0xFE 1 0x03 0x8014 = (0x01, 0x01) := by decide
theorem test_A13_addReg_into_VF : resultAndFlag 15 0x10 1 0x20 0x8F14 = (0x30, 0x30) := by decide
theorem test_A15_subReg_equal : resultAndFlag 0 5 1 5 0x8015 = (0, 0) := by decide
theorem test_A19_subReg_from_VF : resultAndFlag 1 5 15 3 0x81F5 = (4, 1) := by decide
theorem test_A23_shr_ignores_Vy : resultAndFlag 0 0x80 1 0x03 0x8016 = (0x40, 0) := by decide
theorem test_A24_shr_VF : resultAndFlag 15 3 1 0 0x8F06 = (0, 0) := by decide
theorem test_A26_subnReg_borrow : resultAndFlag 0 5 1 3 0x8017 = (0xFE, 0) := by decide
theorem test_A29_subnReg_from_VF : resultAndFlag 1 0x05 15 0x10 0x81F7 = (0xFC, 1) := by decide
theorem test_A30_shl : resultAndFlag 0 0x81 1 0 0x800E = (0x02, 1) := by decide
theorem test_A32_shl_VF : resultAndFlag 15 0x81 1 0 0x8FFE = (2, 2) := by decide
theorem test_A33_rnd : (afterWord (State.reset.presentRnd 0xAB) 0xC30F).getV 3 = 0x0B := by decide

/-! ### Index register and memory -/

theorem test_M1_ldI : (afterWord State.reset 0xA123).i = 0x123 := by decide
theorem test_M3_addI_wraps : (afterWord ((withRegs 1 2 0 0).setI 0xFFFF) 0xF11E).i = 0x0001 := by decide
theorem test_M6_ldF : (afterWord (withRegs 0 0x1A 1 0) 0xF029).i = 0x0D2 := by decide
theorem test_M8_ldB : (List.range 3).map (fun k => (afterWord ((withRegs 2 0xFF 0 0).setI 0x300) 0xF233).peek (0x300 + k)) =
    [2, 5, 5] := by decide
theorem test_M11_ldB_edge : (afterWord ((withRegs 2 0x9C 0 0).setI 0xFFE) 0xF233).peek 0xFFF = 5 ∧
    (afterWord ((withRegs 2 0x9C 0 0).setI 0xFFE) 0xF233).fault = 0x08 := by decide
theorem test_M14_store_edge : (afterWord ((withRegs 0 0x11 1 0x22).setI 0xFFF) 0xF155).peek 0xFFF = 0x11 ∧
    (afterWord ((withRegs 0 0x11 1 0x22).setI 0xFFF) 0xF155).fault = 0x08 := by decide
theorem test_M12_store_keeps_I : (afterWord ((withRegs 0 0x11 1 0x22).setI 0x300) 0xF155).peek 0x301 = 0x22 ∧
    (afterWord ((withRegs 0 0x11 1 0x22).setI 0x300) 0xF155).i = 0x300 := by decide
theorem test_M16_load_edge : (afterWord (((withRegs 1 0x77 2 0x88).setI 0xFFF).poke 0xFFF 0x5A) 0xF265).getV 0 = 0x5A ∧
    (afterWord (((withRegs 1 0x77 2 0x88).setI 0xFFF).poke 0xFFF 0x5A) 0xF265).getV 1 = 0x77 := by decide
theorem test_M17_load_VF : (afterWord ((State.reset.setI 0x300).poke 0x30F 0xEE) 0xFF65).getV 15 = 0xEE := by decide

/-! ### Display -/

theorem test_D1_cls : (afterWord (State.reset.flipDisp 2047) 0x00E0).pixel 63 31 = false ∧
    (afterWord (State.reset.flipDisp 2047) 0x00E0).redraw = true := by decide
theorem test_D6_drw_clips_right :
    [0, 1, 61, 62, 63].filter (fun x => (afterWord (((withRegs 0 0x3E 1 0).setI 0x300).poke 0x300 0xFF) 0xD011).pixel x 0) =
      [62, 63] := by decide
theorem test_D9_drw_origin_from_VF :
    (afterWord (((withRegs 15 8 0 0).setI 0x300).poke 0x300 0x80) 0xDF01).pixel 8 0 = true ∧
    (afterWord (((withRegs 15 8 0 0).setI 0x300).poke 0x300 0x80) 0xDF01).getV 15 = 0 := by decide

/-! ### Keys and timers -/

theorem test_K1_K2_skp : (afterWord ((withRegs 1 5 0 0).setKeys 0x0020) 0xE19E).pc = 0x204 ∧
    (afterWord ((withRegs 1 5 0 0).setKeys 0x0010) 0xE19E).pc = 0x202 := by decide
theorem test_K3_skp_range : pcAndFault (afterWord ((withRegs 1 0x10 0 0).setKeys 0x0001) 0xE19E) = (0x202, 0x04) := by decide
theorem test_K4_K5_sknp : (afterWord ((withRegs 1 5 0 0).setKeys 0x0010) 0xE1A1).pc = 0x204 ∧
    (afterWord ((withRegs 1 5 0 0).setKeys 0x0020) 0xE1A1).pc = 0x202 := by decide
theorem test_K6_sknp_range : pcAndFault (afterWord (withRegs 1 0xFF 0 0) 0xE1A1) = (0x202, 0x04) := by decide
theorem test_K8_ldVxDt : (afterWord (State.reset.setDt 0x3C) 0xF407).getV 4 = 0x3C := by decide
theorem test_K9_wait : (afterWord (withRegs 4 9 0 0) 0xF40A).pc = 0x200 ∧ (afterWord (withRegs 4 9 0 0) 0xF40A).getV 4 = 9 := by
  decide
theorem test_K10_highest_key : (afterWord (State.reset.setKeys 0x1004) 0xF40A).getV 4 = 0x0C := by decide
theorem test_K13_ldDtVx : (afterWord (withRegs 4 0x20 0 0) 0xF415).dt = 0x20 := by decide
theorem test_K14_ldStVx : (afterWord (withRegs 4 0x01 0 0) 0xF418).st = 0x01 := by decide

/-! ### Fetch and host transactions -/

theorem test_V10_last_word : pcAndFault (afterWord (State.reset.setPc 0xFFE) 0x6042) = (0x1000, 0) := by decide
theorem test_V11_fetch_fault : step (State.reset.setPc 0xFFF) = .next ((State.reset.setPc 0xFFF).raise .fr) := rfl
theorem test_H2_tick_edge : (doTick (State.reset.setSt 1)).1 = true ∧ (doTick (State.reset.setSt 1)).2.st = 0 := by decide
theorem test_H6_load_edge : (doLoad 3583 0xAB State.reset).peek 0xFFF = 0xAB ∧ (doLoad 3584 0xCD State.reset).mem = [] := by
  decide
theorem test_W2_font_at_reset : (List.range 5).map (fun j => State.reset.peek (0x09B + j)) = [0xF0, 0x80, 0xF0, 0x80, 0x80] := by
  decide

/-! ### The parameters (R5): another FONT, another STACK_DEPTH, a fixed ratio -/

/-- A block with a one-entry stack and a FONT of 0xAA bytes, in reset. -/
def otherBlock : State := State.resetWith { font := Vector.replicate 80 0xAA, stackDepth := 1 }

theorem test_params_stack_depth : pcAndFault (afterWord { otherBlock with sp := 1 } 0x2400) = (0x202, 0x02) ∧
    (afterWord otherBlock 0x2400).stackAt 0 = 0x202 := by decide
theorem test_params_font : otherBlock.peek 0x04F = 0 ∧ otherBlock.peek 0x050 = 0xAA ∧ otherBlock.peek 0x09F = 0xAA ∧
    otherBlock.peek 0x0A0 = 0 := by decide
theorem test_params_survive_reset : (doReset (otherBlock.poke 0x050 0)).peek 0x050 = 0xAA ∧
    (doReset { otherBlock with sp := 1 }).params = otherBlock.params := by decide
theorem test_hostSchedule : hostSchedule 2 (fun _ => 0x0008) (fun p j => BitVec.ofNat 8 (p + j)) 1 =
    [.setKeys 0x0008, .step 0, .step 1, .tick] := by decide

/-! ### Witnesses: every statement with hypotheses has states and operands that meet them -/

theorem witness_DecoderConsumesTwoBigEndianBytes : decode [0x60, 0x42, 0xFF] = .ok (.ldImm 0 0x42, [0xFF]) := by decide

theorem witness_EveryWordSelectsExactlyItsRow :
    ((0xF00F#16, 0x8004#16) ∈ opcodeRows ∧ 0x8124#16 &&& 0xF00F#16 = 0x8004#16) ∧
    ((0xF0FF#16, 0x00E0#16) ∈ opcodeRows ∧ ¬ 0x0123#16 &&& 0xF0FF#16 = 0x00E0#16) := by decide

theorem witness_IgnoredWordsDoNothing :
    ((0x0FFF#16).toNat / 4096 = 0x0 ∧ (0x0FFF#16).toNat % 256 ∉ [0xE0, 0xEE]) ∧
    ((0x8008#16).toNat / 4096 = 0x8 ∧ (0x8008#16).toNat % 16 ∈ [0x8, 0x9, 0xA, 0xB, 0xC, 0xD, 0xF]) ∧
    ((0x8FFF#16).toNat / 4096 = 0x8 ∧ (0x8FFF#16).toNat % 16 ∈ [0x8, 0x9, 0xA, 0xB, 0xC, 0xD, 0xF]) ∧
    ((0xE09F#16).toNat / 4096 = 0xE ∧ (0xE09F#16).toNat % 256 ∉ [0x9E, 0xA1]) ∧
    ((0xFFFF#16).toNat / 4096 = 0xF ∧
      (0xFFFF#16).toNat % 256 ∉ [0x07, 0x0A, 0x15, 0x18, 0x1E, 0x29, 0x33, 0x55, 0x65]) := by decide

theorem witness_DecodeOfEncodeIsTheInstruction : (Instr.drw 15 15 15).wf = true ∧ (Instr.ignored0 0xFFF).wf = true := by decide

theorem witness_StepRunsTheDecodedInstruction :
    (State.reset.pc.toNat ≤ 0xFFE ∧ (Instr.ignored0 0x000).wf = true ∧
      decode [State.reset.peek State.reset.pc.toNat, State.reset.peek (State.reset.pc.toNat + 1)] =
        .ok (.ignored0 0x000, [])) ∧
    ((State.reset.setPc 0xFFE).pc.toNat ≤ 0xFFE ∧
      decode [(State.reset.setPc 0xFFE).peek 0xFFE, (State.reset.setPc 0xFFE).peek 0xFFF] = .ok (.ignored0 0x000, [])) := by
  decide

theorem witness_StepRunsTheDecodedInstruction_rnd : ∃ t, step { State.reset with rnd := 0xFF } = .next t := ⟨_, rfl⟩

theorem witness_FetchReadsTwoBytesBigEndian :
    (State.reset.setPc 0xFFE).pc.toNat ≤ 0xFFE ∧ 0xFFE < (State.reset.setPc 0xFFF).pc.toNat := by decide

theorem witness_FetchOutOfRangeIsStuckWithFr : 0xFFE < (State.reset.setPc 0xFFF).pc.toNat := by decide

theorem witness_OnlyRndReadsTheRandomInput :
    (∀ x kk, Instr.cls ≠ .rnd x kk) ∧ ∃ t, exec .cls State.reset = .next t :=
  ⟨fun _ _ h => (by cases h), _, rfl⟩

theorem witness_PcFollowsTheUpdateLaw :
    (State.reset.pc.toNat ≤ 0xFFE ∧ ∃ t, step State.reset = .next t) ∧
    (0xFFE < (State.reset.setPc 0xFFF).pc.toNat ∧ ∃ t, step (State.reset.setPc 0xFFF) = .next t) :=
  ⟨⟨by decide, _, rfl⟩, by decide, _, rfl⟩

/-- Words that match, for every `Selects` clause: don't-care bits set where the row has them. -/
theorem witness_Selects :
    0x0FE0#16 &&& 0xF0FF#16 = 0x00E0#16 ∧ 0x0FEE#16 &&& 0xF0FF#16 = 0x00EE#16 ∧
    0x1FFF#16 &&& 0xF000#16 = 0x1000#16 ∧ 0x2FFF#16 &&& 0xF000#16 = 0x2000#16 ∧
    0x3FFF#16 &&& 0xF000#16 = 0x3000#16 ∧ 0x4FFF#16 &&& 0xF000#16 = 0x4000#16 ∧
    0x512F#16 &&& 0xF000#16 = 0x5000#16 ∧ 0x6FFF#16 &&& 0xF000#16 = 0x6000#16 ∧
    0x7FFF#16 &&& 0xF000#16 = 0x7000#16 ∧ 0x8FF0#16 &&& 0xF00F#16 = 0x8000#16 ∧
    0x8FF1#16 &&& 0xF00F#16 = 0x8001#16 ∧ 0x8FF2#16 &&& 0xF00F#16 = 0x8002#16 ∧
    0x8FF3#16 &&& 0xF00F#16 = 0x8003#16 ∧ 0x8FF4#16 &&& 0xF00F#16 = 0x8004#16 ∧
    0x8FF5#16 &&& 0xF00F#16 = 0x8005#16 ∧ 0x8FF6#16 &&& 0xF00F#16 = 0x8006#16 ∧
    0x8FF7#16 &&& 0xF00F#16 = 0x8007#16 ∧ 0x8FFE#16 &&& 0xF00F#16 = 0x800E#16 ∧
    0x912F#16 &&& 0xF000#16 = 0x9000#16 ∧ 0xAFFF#16 &&& 0xF000#16 = 0xA000#16 ∧
    0xBFFF#16 &&& 0xF000#16 = 0xB000#16 ∧ 0xCFFF#16 &&& 0xF000#16 = 0xC000#16 ∧
    0xDFFF#16 &&& 0xF000#16 = 0xD000#16 ∧ 0xEF9E#16 &&& 0xF0FF#16 = 0xE09E#16 ∧
    0xEFA1#16 &&& 0xF0FF#16 = 0xE0A1#16 ∧ 0xFF07#16 &&& 0xF0FF#16 = 0xF007#16 ∧
    0xFF0A#16 &&& 0xF0FF#16 = 0xF00A#16 ∧ 0xFF15#16 &&& 0xF0FF#16 = 0xF015#16 ∧
    0xFF18#16 &&& 0xF0FF#16 = 0xF018#16 ∧ 0xFF1E#16 &&& 0xF0FF#16 = 0xF01E#16 ∧
    0xFF29#16 &&& 0xF0FF#16 = 0xF029#16 ∧ 0xFF33#16 &&& 0xF0FF#16 = 0xF033#16 ∧
    0xFF55#16 &&& 0xF0FF#16 = 0xF055#16 ∧ 0xFF65#16 &&& 0xF0FF#16 = 0xF065#16 := by decide

/-- A sprite of one set bit at the last pixel: with that pixel on there is a collision, with it off there is none. -/
theorem witness_DrwXorsTheClippedSprite :
    (((State.reset.setI 0x300).poke 0x300 0x80).flipDisp 2047).pixel 63 31 = true ∧
    spriteRow (((State.reset.setI 0x300).poke 0x300 0x80).flipDisp 2047) 0 = 0x80 ∧
    ((State.reset.setI 0x300).poke 0x300 0x80).pixel 63 31 = false := by decide

theorem witness_DrwXorsTheClippedSprite_covers :
    spriteCovers (((State.reset.setI 0x300).poke 0x300 0x80).flipDisp 2047) 1 63 31 63 31 :=
  ⟨by decide, by decide, by decide, by decide, by decide⟩

theorem witness_DrwXorsTheClippedSprite_no_collision :
    ¬ ∃ px py, px < 64 ∧ py < 32 ∧ State.reset.pixel px py = true ∧ spriteCovers State.reset 0 63 31 px py := by
  rintro ⟨px, py, -, -, -, h1, h2, -⟩
  omega

theorem witness_DrawingTwiceRestoresTheScreen : (0 : RegIdx) ≠ regF ∧ (1 : RegIdx) ≠ regF := by decide

theorem witness_RetPopsOrSetsSu :
    State.reset.sp = 0 ∧ 0 < ({ State.reset with sp := 1 } : State).sp ∧
    (0 < ({ State.reset with sp := 16 } : State).sp ∧
      ({ State.reset with sp := 16 } : State).sp ≤ State.reset.stackDepth) := by decide

theorem witness_CallPushesOrSetsSo :
    ({ State.reset with sp := 16 } : State).sp = State.reset.stackDepth ∧
    ({ State.reset with sp := 15 } : State).sp < State.reset.stackDepth ∧ State.reset.sp < State.reset.stackDepth := by decide

theorem witness_CallThenRetComesBack : ({ State.reset with sp := 15 } : State).sp < State.reset.stackDepth := by decide

theorem witness_flag_instructions : (14 : RegIdx) ≠ regF ∧ (15 : RegIdx) = regF := by decide

theorem witness_LdBStoresThreeDigits :
    indexPlus (State.reset.setI 0xFFD) 2 ≤ 0xFFF ∧ indexPlus (State.reset.setI 0xFFE) 1 ≤ 0xFFF ∧
    ¬ indexPlus (State.reset.setI 0xFFE) 2 ≤ 0xFFF ∧ indexPlus (State.reset.setI 0xFFF) 0 ≤ 0xFFF := by decide

theorem witness_StoreAndLoadRegisters :
    ((15 : RegIdx).val ≤ (15 : RegIdx).val ∧ indexPlus (State.reset.setI 0xFF0) 15 ≤ 0xFFF) ∧
    ((0 : RegIdx).val ≤ (1 : RegIdx).val ∧ indexPlus (State.reset.setI 0xFFF) 0 ≤ 0xFFF ∧
      ¬ indexPlus (State.reset.setI 0xFFF) 1 ≤ 0xFFF) := by decide

theorem witness_DataAccessesAreRangeChecked :
    indexPlus (State.reset.setI 0xFFF) 0 ≤ 0xFFF ∧ 0xFFF < indexPlus (State.reset.setI 0xFFF) 1 ∧
    0xFFF < indexPlus (State.reset.setI 0xFFFF) 15 := by decide

theorem witness_StoredCodeIsFetchedNext :
    1 ≤ (1 : RegIdx).val ∧ ((State.reset.setI 0xFFE).setPc 0xFFE).i = ((State.reset.setI 0xFFE).setPc 0xFFE).pc ∧
    ((State.reset.setI 0xFFE).setPc 0xFFE).pc.toNat ≤ 0xFFE := by decide

theorem witness_KeySkipsOrSetKr :
    15 < ((State.reset.setV 1 16).getV 1).toNat ∧ ((State.reset.setV 1 15).getV 1).toNat ≤ 15 := by decide

theorem witness_WaitForKeyTakesTheHighest :
    (∀ k, k < 16 → State.reset.keys.getLsbD k = false) ∧
    ((State.reset.setKeys 0x8001).keys.getLsbD 15 = true ∧
      ∀ j, 15 < j → j < 16 → (State.reset.setKeys 0x8001).keys.getLsbD j = false) ∧
    ((State.reset.setKeys 0x0001).keys.getLsbD 0 = true ∧
      ∀ j, 0 < j → j < 16 → (State.reset.setKeys 0x0001).keys.getLsbD j = false) := by
  refine ⟨by decide, ⟨by decide, fun j h k => by omega⟩, by decide, ?_⟩
  have : ∀ j, j < 16 → 0 < j → (State.reset.setKeys 0x0001).keys.getLsbD j = false := by decide
  exact fun j h k => this j k h

/-- Both `FaultBitsHaveExactlyTheirCauses` and the statements over every `exec` that answers a next state. -/
theorem witness_exec_next :
    (∃ t, exec .ret State.reset = .next t) ∧ raises .ret State.reset .su ∧
    ∃ t, exec (.ldImm regF 1) State.reset = .next t ∧ t.getV regF ≠ State.reset.getV regF :=
  ⟨⟨_, rfl⟩, ⟨rfl, rfl⟩, _, rfl, by decide⟩

theorem witness_FaultBitsHaveExactlyTheirCauses_fetch :
    0xFFE < (State.reset.setPc 0x1000).pc.toNat ∧ ∃ t, step (State.reset.setPc 0x1000) = .next t := ⟨by decide, _, rfl⟩

theorem witness_step_next : ∃ t, step State.reset = .next t := ⟨_, rfl⟩

theorem witness_FaultBitsAreStickyUntilReset :
    (Transaction.tick ≠ .reset ∧ (∃ t o, transact .tick (State.reset.raise .fr) = .next (t, o)) ∧
      (State.reset.raise .fr).fault.getLsbD 4 = true) ∧
    ∃ t o, transact .reset (State.reset.raise .fr) = .next (t, o) :=
  ⟨⟨by decide, ⟨_, _, rfl⟩, by decide⟩, _, _, rfl⟩

/-- The reset state with ST, REDRAW, FAULT and a stale entry changed. -/
def unreadChanged : State :=
  { State.reset with st := 1, redraw := true, fault := 0x1F, stack := State.reset.stack.set 0 0x300 }

theorem witness_UnreadStateNeverReachesTheProgram :
    SameView State.reset unreadChanged ∧ State.reset.stackAt 0 ≠ unreadChanged.stackAt 0 ∧
    (∃ t, step State.reset = .next t) ∧ ∃ t, step unreadChanged = .next t :=
  ⟨⟨fun _ => rfl, rfl, rfl, rfl, rfl, fun _ h => absurd h (Nat.not_lt_zero _), rfl, rfl, rfl, rfl, rfl, rfl⟩, by decide,
    ⟨_, rfl⟩, _, rfl⟩

/-- A state that is not the reset state: a byte is listed, FAULT is set, a saved PC is in use. -/
def usedState : State :=
  { State.reset with mem := [(0x300, 1)], fault := 0x1F, sp := 1, stack := State.reset.stack.set 0 0x1000 }

theorem witness_StepKeepsTheInvariant :
    (usedState.Inv ∧ ∃ t, step usedState = .next t) ∧
    ((usedState.setPc 0x10FE).Inv ∧ ∃ t, step (usedState.setPc 0x10FE) = .next t) :=
  ⟨⟨by decide, _, rfl⟩, by decide, _, rfl⟩

theorem witness_EveryScheduleKeepsTheInvariant :
    State.Inv { State.reset with mem := [(0x300, 1)] } ∧
    ∃ t os, runTransactions [.tick, .load 0 0x12, .ackRedraw] { State.reset with mem := [(0x300, 1)] } = .next (t, os) :=
  ⟨by decide, _, _, rfl⟩

/-- From reset the next STEP runs an ignored word, which stores nothing. -/
theorem witness_FontSurvivesStepsThatAvoidIt :
    stepsAvoid (fun a => 0x050 ≤ a ∧ a ≤ 0x09F) 1 State.reset ∧
    ∃ t, Host.Core.run Sys2Proof.core 1 State.reset = .next t :=
  ⟨⟨fun _ _ h => h, fun _ _ => trivial⟩, _, rfl⟩

theorem witness_TickCountsDownAndReportsTheEdge :
    (State.reset.setSt 1).st.toNat = 1 ∧ (doTick (State.reset.setSt 1)).2.st.toNat = 0 ∧
    ¬ (State.reset.setSt 2).st.toNat = 1 := by decide

theorem witness_ResetGivesEveryItemItsValue :
    0x04F < 0x050 ∧ 79 < 80 ∧ (0x0A0 ≤ 0x0A0 ∧ 0xFFF ≤ 0xFFF) ∧ 15 < State.reset.stackDepth ∧ 2047 < 2048 ∧ 15 < 16 := by decide

theorem witness_FontStandsAt0x050 : 15 < 16 ∧ 4 < 5 := by decide

theorem witness_LoadFillsTheProgramRegion :
    (3583 ≤ 3583 ∧ 0x200 + 3583 = 0xFFF) ∧ 3584 ≤ 3584 ∧ ([0x12, 0x34] : List Byte).length ≤ 3584 := by decide

end Sys2Proof.Machine
end

section
/-! SUPPORT. Induction rules for the loops of Dxyn and Fx65: what each update of the loop keeps, the loop keeps. -/

namespace Sys2Proof.Machine

variable {P : State → Prop}

/-- A sprite bit is at most a set VF and a flipped pixel (R121, R123). -/
theorem drawBit_induction (hVf : ∀ s, P s → P (s.setV regF 1)) (hFlip : ∀ s p, P s → P (s.flipDisp p))
    (ox oy r : Nat) (row : Byte) (c : Nat) {s : State} (hs : P s) : P (drawBit ox oy r row s c) := by
  unfold drawBit
  split
  · refine hFlip _ _ ?_
    split
    · exact hVf s hs
    · exact hs
  · exact hs

/-- A sprite is at most a raised AR, a set VF and flipped pixels, many times (R65, R121, R123). -/
theorem drawRows_induction (hVf : ∀ s, P s → P (s.setV regF 1)) (hFlip : ∀ s p, P s → P (s.flipDisp p))
    (hAr : ∀ s, P s → P (s.raise .ar)) (ox oy n : Nat) {s : State} (hs : P s) :
    P ((List.range n).foldl (drawRow ox oy) s) := by
  refine List.foldlRecOn _ _ hs fun t ht r _ => ?_
  rw [drawRow_eq]
  refine List.foldlRecOn _ _ ?_ fun u hu c _ => drawBit_induction hVf hFlip ox oy r _ c hu
  split
  · exact ht
  · exact hAr t ht

/-- One pass of Fx65's loop: the byte read, or AR (R215). -/
theorem loadReg_eq (s : State) (k : RegIdx) :
    loadReg s k = if indexPlus s k.val ≤ 0xFFF then s.setV k (s.peek (indexPlus s k.val)) else s.raise .ar := by
  unfold loadReg
  by_cases h : indexPlus s k.val ≤ 0xFFF
  · simp only [memRead_in h, if_pos h]
  · simp only [memRead_out (Nat.lt_of_not_le h), if_neg h]

theorem mem_firstRegs {n : Nat} {k : RegIdx} : k ∈ firstRegs n ↔ k.val < n := by
  simp only [firstRegs, List.mem_take_iff_getElem, List.getElem_finRange]
  constructor
  · rintro ⟨j, hj, rfl⟩
    exact (lt_min_iff.mp hj).1
  · exact fun h => ⟨k.val, lt_min h (by simp), rfl⟩

end Sys2Proof.Machine
end

section
/-! PROOFS. The access matrix R35 as a frame of every instruction, and what R22 reads off it. -/

namespace Sys2Proof.Machine

variable {w : Writes}

/-! ### Frames of the updates that only one or two instructions make -/

theorem Frame.flipDisp (hw : w.display = true) (s : State) (p : Nat) : Frame w s (s.flipDisp p) :=
  { Frame.refl w s with display := fun e => by rw [hw] at e; cases e }

theorem Frame.clearDisp (hw : w.display = true) (s : State) : Frame w s s.clearDisp :=
  { Frame.refl w s with display := fun e => by rw [hw] at e; cases e }

theorem Frame.setRedraw (hw : w.display = true) (s : State) (b : Bool) : Frame w s (s.setRedraw b) :=
  { Frame.refl w s with display := fun e => by rw [hw] at e; cases e }

theorem Frame.setDt (hw : w.delay = true) (s : State) (b : Byte) : Frame w s (s.setDt b) :=
  { Frame.refl w s with delay := fun e => by rw [hw] at e; cases e }

theorem Frame.setSt (hw : w.sound = true) (s : State) (b : Byte) : Frame w s (s.setSt b) :=
  { Frame.refl w s with sound := fun e => by rw [hw] at e; cases e }

theorem Frame.freshRnd (hw : w.random = true) (s : State) : Frame w s s.freshRnd :=
  { Frame.refl w s with random := fun e => by rw [hw] at e; cases e }

/-- RET's frame: PC and SP (R140). -/
theorem Frame.popped (hp : w.pc = true) (hs : w.stack = true) (s : State) (p : Word) (n : Nat) :
    Frame w s { s with pc := p, sp := n } :=
  { Frame.refl w s with
    pc := fun e => by rw [hp] at e; cases e
    stack := fun e => by rw [hs] at e; cases e }

/-- CALL's frame: PC, an entry and SP; the depth is kept (R142). -/
theorem Frame.pushed (hp : w.pc = true) (hs : w.stack = true) (s : State) (p v : Word) (n : Nat) :
    Frame w s { s with pc := p, stack := s.stack.set s.sp v, sp := n } :=
  { Frame.refl w s with
    pc := fun e => by rw [hp] at e; cases e
    stack := fun e => by rw [hs] at e; cases e
    params := params_set s v p n }

/-- A flag and then a register: the shape of the five flag-setting ALU instructions (R169). -/
theorem Frame.flagThenReg {x : RegIdx} (hf : w.regs regF) (hx : w.regs x) (s : State) (f b : Byte) :
    Frame w s ((writeFlag f s).setV x b) :=
  (Frame.setV hf s f).trans (Frame.setV hx _ b)

theorem Frame.keySkip (hp : w.pc = true) (hf : w.faults .kr) (down : Bool) (k : Byte) (s : State) :
    Frame w s (keySkip down k s) := by
  unfold Machine.keySkip
  split
  · exact Frame.raise hf s
  · exact Frame.skipIf hp _ s

/-! ### Frames of the loops -/

theorem Frame.drawRows (hv : w.regs regF) (hd : w.display = true) (hf : w.faults .ar) (ox oy n : Nat) (s : State) :
    Frame w s ((List.range n).foldl (drawRow ox oy) s) :=
  drawRows_induction (fun t h => h.trans (Frame.setV hv t 1)) (fun t p h => h.trans (Frame.flipDisp hd t p))
    (fun t h => h.trans (Frame.raise hf t)) ox oy n (Frame.refl w s)

/-- A store at I + k, wherever the earlier stores of the loop have led: they kept I (R213, R214). -/
theorem Frame.storeAt {s t : State} {k : Nat} (h : Frame w s t) (hi : w.index = false) (hf : w.faults .ar)
    (hb : indexPlus s k ≤ 0xFFF → w.bytes (indexPlus s k)) (b : Byte) :
    Frame w s (Machine.memWrite (indexPlus t k) b t) := by
  have hI : indexPlus t k = indexPlus s k := by simp only [indexPlus, h.index hi]
  exact h.trans (Frame.memWrite (hI ▸ hb) hf b t)

theorem Frame.storeRegs {n : Nat} (hi : w.index = false) (hf : w.faults .ar) (s : State)
    (hb : ∀ k, k < n → indexPlus s k ≤ 0xFFF → w.bytes (indexPlus s k)) :
    Frame w s ((firstRegs n).foldl storeReg s) :=
  List.foldlRecOn _ _ (Frame.refl w s) fun _ h k hk => h.storeAt hi hf (hb k.val (mem_firstRegs.mp hk)) _

theorem Frame.loadRegs {n : Nat} (hf : w.faults .ar) (hr : ∀ r : RegIdx, r.val < n → w.regs r) (s : State) :
    Frame w s ((firstRegs n).foldl loadReg s) := by
  refine List.foldlRecOn _ _ (Frame.refl w s) fun t h k hk => h.trans ?_
  rw [loadReg_eq]
  split
  · exact Frame.setV (hr k (mem_firstRegs.mp hk)) t _
  · exact Frame.raise hf t

/-! ### Every instruction -/

/-- Every instruction answers a state that its row of R35 frames. -/
theorem exec_frame (i : Instr) (s : State) : ∃ t, exec i s = .next t ∧ Frame (accessMatrix i s) s t := by
  cases i with
  | cls => exact ⟨_, rfl, (Frame.clearDisp rfl s).trans (Frame.setRedraw rfl _ true)⟩
  | ret =>
    rcases Nat.eq_zero_or_pos s.sp with h | h
    · exact ⟨_, execRet_empty h, Frame.raise rfl s⟩
    · exact ⟨_, execRet_entry h, Frame.popped rfl rfl s _ _⟩
  | call nnn =>
    by_cases h : s.sp = s.stackDepth
    · exact ⟨_, execCall_full nnn h, Frame.raise rfl s⟩
    · exact ⟨_, execCall_room nnn h, Frame.pushed rfl rfl s _ _ _⟩
  | jp _ | jpV0 _ => exact ⟨_, rfl, Frame.setPc rfl s _⟩
  | seImm _ _ | sneImm _ _ | seReg _ _ | sneReg _ _ => exact ⟨_, rfl, Frame.skipIf rfl _ s⟩
  | ldImm _ _ | addImm _ _ | ldReg _ _ | orReg _ _ | andReg _ _ | xorReg _ _ | ldVxDt _ =>
    exact ⟨_, rfl, Frame.setV rfl s _⟩
  | addReg _ _ | subReg _ _ | subnReg _ _ | shr _ | shl _ =>
    exact ⟨_, rfl, Frame.flagThenReg (Or.inr rfl) (Or.inl rfl) s _ _⟩
  | rnd _ _ => exact ⟨_, rfl, (Frame.freshRnd rfl s).trans (Frame.setV rfl _ _)⟩
  | ldI _ | addI _ | ldF _ => exact ⟨_, rfl, Frame.setI rfl s _⟩
  | skp _ | sknp _ => exact ⟨_, rfl, Frame.keySkip rfl rfl _ _ s⟩
  | ldVxK x =>
    cases h : scanKeys s with
    | none => exact ⟨_, execLdVxK_none x h, Frame.setPc rfl s _⟩
    | some b => exact ⟨_, execLdVxK_some x h, Frame.setV rfl s b⟩
  | ldDtVx _ => exact ⟨_, rfl, Frame.setDt rfl s _⟩
  | ldStVx _ => exact ⟨_, rfl, Frame.setSt rfl s _⟩
  | drw x y n =>
    exact ⟨_, rfl, ((Frame.setV rfl s 0).trans (Frame.drawRows rfl rfl rfl _ _ _ _)).trans (Frame.setRedraw rfl _ true)⟩
  | ldB _ =>
    have digit : ∀ k, k ≤ 2 → indexPlus s k ≤ 0xFFF → storedBytes s 2 (indexPlus s k) :=
      fun k hk hle => ⟨k, hk, rfl, hle⟩
    exact ⟨_, rfl, (((Frame.refl _ s).storeAt rfl rfl (digit 0 (by decide)) _).storeAt rfl rfl
      (digit 1 (by decide)) _).storeAt rfl rfl (digit 2 (by decide)) _⟩
  | storeRegs _ =>
    exact ⟨_, rfl, Frame.storeRegs rfl rfl s fun k hk hle => ⟨k, Nat.le_of_lt_succ hk, rfl, hle⟩⟩
  | loadRegs _ => exact ⟨_, rfl, Frame.loadRegs rfl (fun _ hr => Nat.le_of_lt_succ hr) s⟩
  | ignored0 _ | ignored8 _ | ignoredE _ | ignoredF _ => exact ⟨_, rfl, Frame.refl _ s⟩

/-- Settles O46, by the frame of each state update an instruction makes. -/
theorem accessMatrixBoundsEveryInstruction : Obligations.AccessMatrixBoundsEveryInstruction := by
  intro i s t h
  obtain ⟨u, hu, hf⟩ := exec_frame i s
  cases h.symm.trans hu
  exact hf

/-- Settles O47: a VF that differs is in the instruction's row of R35, and these rows name it. -/
theorem onlyListedInstructionsChangeVf : Obligations.OnlyListedInstructionsChangeVf := by
  intro i s t h hne
  have hw : (accessMatrix i s).regs regF := by
    by_contra hn
    exact hne ((accessMatrixBoundsEveryInstruction i s t h).regs regF hn)
  clear h hne
  cases i with
  | loadRegs x =>
    have hx : x = regF := Fin.ext (by have : 15 ≤ x.val := hw; show x.val = 15; omega)
    simp [hx]
  | ldImm _ _ | addImm _ _ | ldReg _ _ | orReg _ _ | andReg _ _ | xorReg _ _ | rnd _ _ | ldVxDt _ | ldVxK _ =>
    cases (show regF = _ from hw)
    simp
  | addReg _ _ | subReg _ _ | subnReg _ _ | shr _ | shl _ | drw _ _ _ => simp
  | _ => cases hw

end Sys2Proof.Machine
end

section
/-! PROOFS. The invariant: the reset state meets it, every STEP and every schedule of transactions keeps it. -/

namespace Sys2Proof.Machine

/-! ### Bounds on the values PC is given -/

theorem addrOperand_toNat (nnn : Addr12) : (addrOperand nnn).toNat = nnn.toNat :=
  BitVec.toNat_setWidth_of_le (by decide)

theorem wideOperand_toNat (b : Byte) : (wideOperand b).toNat = b.toNat :=
  BitVec.toNat_setWidth_of_le (by decide)

/-- The target of Bnnn is at most 0xFFF + 0xFF (R147). -/
theorem jpV0_target_le (nnn : Addr12) (b : Byte) : (addrOperand nnn + wideOperand b).toNat ≤ 0x10FE := by
  have hn := nnn.isLt
  have hb := b.isLt
  rw [BitVec.toNat_add, addrOperand_toNat, wideOperand_toNat]
  omega

/-! ### What each update does to the invariant

`State.Inv` speaks of MEM, FONT, FAULT, PC, STACK and SP only. An update of anything else leaves every clause as it
was, so the invariant of the old state is, as it stands, that of the new one. -/

namespace State.Inv

variable {s : State}

theorem setV (h : s.Inv) (r : RegIdx) (b : Byte) : (s.setV r b).Inv := h

theorem flipDisp (h : s.Inv) (p : Nat) : (s.flipDisp p).Inv := h

theorem raise (h : s.Inv) (b : FaultBit) : (s.raise b).Inv :=
  let ⟨hMem, hFault, hRest⟩ := h
  ⟨hMem, State.raise_reserved s b hFault, hRest⟩

theorem poke (h : s.Inv) {a : Nat} (ha : a < Config.memSize) (b : Byte) : (s.poke a b).Inv :=
  ⟨Memory.write_wf h.1 ha b, h.2⟩

theorem memWrite (h : s.Inv) (ea : Nat) (b : Byte) : (memWrite ea b s).Inv := by
  by_cases hle : ea ≤ 0xFFF
  · rw [memWrite_in hle]; exact h.poke (Nat.lt_succ_of_le hle) b
  · rw [memWrite_out (Nat.lt_of_not_le hle)]; exact h.raise .ar

theorem setPc (h : s.Inv) {w : Word} (hw : w.toNat ≤ 0x10FE) : (s.setPc w).Inv :=
  let ⟨hMem, hFault, _, hStack⟩ := h
  ⟨hMem, hFault, hw, hStack⟩

/-- A skip from an advanced PC (R92). -/
theorem skipIf (h : s.Inv) (hpc : s.pc.toNat ≤ 0x1000) (c : Bool) : (skipIf c s).Inv := by
  cases c
  · exact h
  · refine h.setPc (w := s.pc + 2) ?_
    rw [BitVec.toNat_add]
    show (s.pc.toNat + 2) % 65536 ≤ 0x10FE
    omega

theorem keySkip (h : s.Inv) (hpc : s.pc.toNat ≤ 0x1000) (down : Bool) (k : Byte) : (keySkip down k s).Inv := by
  unfold Machine.keySkip
  split
  · exact h.raise .kr
  · exact h.skipIf hpc _

/-- RET goes to a saved PC, and the entries left in use are the earlier ones (R140). -/
theorem popped (h : s.Inv) (hsp : 0 < s.sp) :
    State.Inv { s with pc := s.stackAt (s.sp - 1), sp := s.sp - 1 } := by
  obtain ⟨hMem, hFault, -, hSp, hSaved⟩ := h
  have hTop := hSaved (s.sp - 1) (by omega)
  exact ⟨hMem, hFault, by show (s.stackAt (s.sp - 1)).toNat ≤ 0x10FE; omega,
    Nat.le_trans (Nat.sub_le _ _) hSp, fun k hk => hSaved k (Nat.lt_of_lt_of_le hk (Nat.sub_le _ _))⟩

/-- CALL saves an advanced PC in the entry at SP (R142). -/
theorem pushed (h : s.Inv) (hpc : s.pc.toNat ≤ 0x1000) (hsp : s.sp ≠ s.stackDepth) (nnn : Addr12) :
    State.Inv { s with pc := addrOperand nnn, stack := s.stack.set s.sp s.pc, sp := s.sp + 1 } := by
  obtain ⟨hMem, hFault, -, hSp, hSaved⟩ := h
  have hRoom : s.sp < s.stackDepth := by omega
  refine ⟨hMem, hFault, ?_, ?_, fun k hk => ?_⟩
  · have := nnn.isLt
    show (addrOperand nnn).toNat ≤ 0x10FE
    rw [addrOperand_toNat]
    omega
  · simpa [State.stackDepth] using hRoom
  · have hAt := stackAt_set s s.pc (s.sp + 1) hRoom k
    change (State.stackAt { s with stack := s.stack.set s.sp s.pc, sp := s.sp + 1 } k).toNat ≤ 0x1000
    rw [hAt]
    split
    · exact hpc
    · exact hSaved k (by have : k < s.sp + 1 := hk; omega)

theorem drawRows (h : s.Inv) (ox oy n : Nat) : ((List.range n).foldl (drawRow ox oy) s).Inv :=
  drawRows_induction (fun _ ht => ht.setV regF 1) (fun _ p ht => ht.flipDisp p) (fun _ ht => ht.raise .ar) ox oy n h

theorem storeRegs (h : s.Inv) (n : Nat) : ((firstRegs n).foldl storeReg s).Inv :=
  List.foldlRecOn _ _ h fun _ ht _ _ => ht.memWrite _ _

theorem loadRegs (h : s.Inv) (n : Nat) : ((firstRegs n).foldl loadReg s).Inv := by
  refine List.foldlRecOn _ _ h fun t ht k _ => ?_
  rw [loadReg_eq]
  split
  · exact ht.setV k _
  · exact ht.raise .ar

end State.Inv

/-! ### Every instruction and every STEP -/

/-- Every instruction keeps the invariant, PC being the advanced PC of a fetchable word: 2 to 0x1000 (R90). -/
theorem exec_inv (i : Instr) {s : State} (h : s.Inv) (hlo : 2 ≤ s.pc.toNat) (hhi : s.pc.toNat ≤ 0x1000) :
    ∃ t, exec i s = .next t ∧ t.Inv := by
  cases i with
  | ret =>
    rcases Nat.eq_zero_or_pos s.sp with hsp | hsp
    · exact ⟨_, execRet_empty hsp, h.raise .su⟩
    · exact ⟨_, execRet_entry hsp, h.popped hsp⟩
  | call nnn =>
    by_cases hsp : s.sp = s.stackDepth
    · exact ⟨_, execCall_full nnn hsp, h.raise .so⟩
    · exact ⟨_, execCall_room nnn hsp, h.pushed hhi hsp nnn⟩
  | jp nnn =>
    have hn := nnn.isLt
    exact ⟨_, rfl, h.setPc (by rw [addrOperand_toNat]; omega)⟩
  | jpV0 nnn => exact ⟨_, rfl, h.setPc (jpV0_target_le nnn _)⟩
  | seImm _ _ | sneImm _ _ | seReg _ _ | sneReg _ _ => exact ⟨_, rfl, h.skipIf hhi _⟩
  | skp _ | sknp _ => exact ⟨_, rfl, h.keySkip hhi _ _⟩
  | ldVxK x =>
    cases hk : scanKeys s with
    | none =>
      have hBack : (s.pc - 2).toNat = s.pc.toNat - 2 := BitVec.toNat_sub_of_le (BitVec.le_def.mpr hlo)
      exact ⟨_, execLdVxK_none x hk, h.setPc (by omega)⟩
    | some b => exact ⟨_, execLdVxK_some x hk, h.setV x b⟩
  | drw _ _ _ => exact ⟨_, rfl, (h.setV regF 0).drawRows _ _ _⟩
  | ldB _ => exact ⟨_, rfl, ((h.memWrite _ _).memWrite _ _).memWrite _ _⟩
  | storeRegs _ => exact ⟨_, rfl, h.storeRegs _⟩
  | loadRegs _ => exact ⟨_, rfl, h.loadRegs _⟩
  | cls | ldImm _ _ | addImm _ _ | ldReg _ _ | orReg _ _ | andReg _ _ | xorReg _ _ | addReg _ _ | subReg _ _ | shr _
  | subnReg _ _ | shl _ | ldI _ | rnd _ _ | ldVxDt _ | ldDtVx _ | ldStVx _ | addI _ | ldF _
  | ignored0 _ | ignored8 _ | ignoredE _ | ignoredF _ => exact ⟨_, rfl, h⟩

theorem advance_toNat {s : State} (h : s.pc.toNat ≤ 0xFFE) : s.advance.pc.toNat = s.pc.toNat + 2 := by
  rw [State.advance_pc, BitVec.toNat_add]
  show (s.pc.toNat + 2) % 65536 = s.pc.toNat + 2
  omega

/-- Settles O50, over the fetch fault and the meaning of every instruction. -/
theorem stepKeepsTheInvariant : Obligations.StepKeepsTheInvariant := by
  intro s t h hst
  rcases step_cases s with ⟨-, hs⟩ | ⟨hpc, hs⟩
  · cases hst.symm.trans hs
    exact h.raise .fr
  · have hAdv := advance_toNat hpc
    obtain ⟨u, hu, hInv⟩ := exec_inv (decodeWord (wordOfBytes (s.peek s.pc.toNat) (s.peek (s.pc.toNat + 1))))
      (s := s.advance) (h.setPc (by rw [← State.advance_pc]; omega)) (by omega) (by omega)
    cases hst.symm.trans (hs.trans hu)
    exact hInv

/-! ### RESET and the other transactions -/

theorem resetWith_inv (p : Config.Params) : (State.resetWith p).Inv :=
  ⟨⟨List.Pairwise.nil, fun _ hc => absurd hc List.not_mem_nil⟩, BitVec.zero_and, by show 0x200 ≤ 0x10FE; decide,
    Nat.zero_le _, fun _ hk => absurd hk (Nat.not_lt_zero _)⟩

/-- Settles O49: at reset nothing is listed, no entry is in use, and PC is 0x200. -/
theorem resetMeetsTheInvariant : Obligations.ResetMeetsTheInvariant :=
  ⟨resetWith_inv defaultParams, resetWith_inv⟩

theorem doLoad_inv {s : State} (h : s.Inv) (offset : Nat) (b : Byte) : (doLoad offset b s).Inv := by
  unfold doLoad
  split
  · next hlt => exact h.poke (by show 0x200 + offset < 4096; have : offset < 3584 := hlt; omega) b
  · exact h

/-- A STEP transaction is one step from the state with the host's byte presented. -/
theorem transact_step {rnd : Byte} {s u : State} (h : step (s.presentRnd rnd) = .next u) :
    transact (.step rnd) s = .next (u, .silent) := by
  simp only [transact, doStep, h]

/-- Every transaction answers a next state, and keeps the invariant. -/
theorem transact_inv (tr : Transaction) {s : State} (h : s.Inv) :
    ∃ t o, transact tr s = .next (t, o) ∧ t.Inv := by
  cases tr with
  | reset => exact ⟨_, _, rfl, resetWith_inv s.params⟩
  | load offset b => exact ⟨_, _, rfl, doLoad_inv h offset b⟩
  | step rnd =>
    obtain ⟨t, ht⟩ := step_next (s.presentRnd rnd)
    exact ⟨t, _, transact_step ht, stepKeepsTheInvariant (s.presentRnd rnd) t h ht⟩
  | setKeys _ | tick | ackRedraw | read => exact ⟨_, _, rfl, h⟩

/-- A schedule is its first transaction and then the rest. -/
theorem runTransactions_cons {tr : Transaction} {rest : List Transaction} {s s1 t : State} {o : Output}
    {os : List Output} (h : transact tr s = .next (s1, o)) (hr : runTransactions rest s1 = .next (t, os)) :
    runTransactions (tr :: rest) s = .next (t, o :: os) := by
  simp only [runTransactions, h, hr]

/-- Every schedule completes, and keeps the invariant. -/
theorem runTransactions_inv (trs : List Transaction) {s : State} (h : s.Inv) :
    ∃ t os, runTransactions trs s = .next (t, os) ∧ t.Inv := by
  induction trs generalizing s with
  | nil => exact ⟨s, [], rfl, h⟩
  | cons tr rest ih =>
    obtain ⟨s1, o, h1, hInv1⟩ := transact_inv tr h
    obtain ⟨t, os, h2, hInv2⟩ := ih hInv1
    exact ⟨t, o :: os, runTransactions_cons h1 h2, hInv2⟩

/-- Settles O51, by induction on the schedule. -/
theorem everyScheduleKeepsTheInvariant : Obligations.EveryScheduleKeepsTheInvariant := by
  intro trs s t os h hrun
  obtain ⟨u, us, hu, hInv⟩ := runTransactions_inv trs h
  cases hrun.symm.trans hu
  exact hInv

/-! ### What RESET leaves in every item -/

theorem initialByte_below_font (font : Vector Byte Config.fontSize) {a : Nat} (h : a < 0x050) :
    initialByte font a = 0 := if_neg (Nat.not_le_of_lt h)

theorem initialByte_font (font : Vector Byte Config.fontSize) {j : Nat} (h : j < 80) :
    font[j]? = some (initialByte font (0x050 + j)) := by
  have hFont : 0x050 + j - Config.fontBase = j := Nat.add_sub_cancel_left ..
  simp [initialByte, hFont, h]

theorem initialByte_above_font (font : Vector Byte Config.fontSize) {a : Nat} (h : 0x0A0 ≤ a) :
    initialByte font a = 0 := by
  have hFont : font.toList.length ≤ a - Config.fontBase := by
    rw [Vector.length_toList]
    show 80 ≤ a - 0x050
    omega
  rw [initialByte, List.getD_eq_default _ _ hFont, ite_self]

theorem getV_doReset (s : State) (r : RegIdx) : (doReset s).getV r = 0 := by
  simp [State.getV, doReset, State.resetWith, Vector.get_eq_getElem]

theorem params_doReset (s : State) : (doReset s).params = s.params := by
  simp [State.params, State.stackDepth, doReset, State.resetWith]

/-- Settles O53, item by item; after RESET no byte is listed, so MEM reads as `initialByte`. -/
theorem resetGivesEveryItemItsValue : Obligations.ResetGivesEveryItemItsValue := fun s =>
  ⟨doReset s, rfl, fun _ ha => initialByte_below_font s.font ha, fun _ hj => initialByte_font s.font hj,
    fun _ ha _ => initialByte_above_font s.font ha, getV_doReset s, rfl, rfl, rfl, rfl, params_doReset s, rfl, rfl,
    fun p _ => Display.bitAt_clear p, rfl, fun _ _ => BitVec.getLsbD_zero, rfl⟩

end Sys2Proof.Machine
end

section
/-! PROOFS. What no instruction reads never reaches a program: two states that look alike to it step alike (R39). -/

namespace Sys2Proof.Machine

/-! ### What a program reads is the same in both states -/

namespace SameView

variable {a b : State}

theorem getV (h : SameView a b) (r : RegIdx) : b.getV r = a.getV r := by
  simp only [State.getV, h.v]

theorem indexPlus (h : SameView a b) (k : Nat) : Machine.indexPlus b k = Machine.indexPlus a k := by
  simp only [Machine.indexPlus, h.i]

theorem stackDepth (h : SameView a b) : b.stackDepth = a.stackDepth :=
  congrArg Config.Params.stackDepth h.params

theorem keyDown (h : SameView a b) (k : Nat) : b.keyDown k = a.keyDown k := by
  simp only [State.keyDown, h.keys]

theorem scanKeys (h : SameView a b) : Machine.scanKeys b = Machine.scanKeys a := by
  have hScan : scanKey b = scanKey a := funext fun found => funext fun k => by
    simp only [scanKey, h.keyDown]
  simp only [Machine.scanKeys, hScan]

theorem spriteRow (h : SameView a b) (r : Nat) : Machine.spriteRow b r = Machine.spriteRow a r := by
  simp only [Machine.spriteRow, h.indexPlus, h.mem]

theorem fetchWord (h : SameView a b) : Machine.fetchWord b = Machine.fetchWord a := by
  simp only [Machine.fetchWord, h.pc, h.mem]

/-! ### Equal updates keep the view -/

theorem setV (h : SameView a b) (r : RegIdx) {c d : Byte} (e : d = c) : SameView (a.setV r c) (b.setV r d) :=
  { h with v := by simp only [State.setV_v, h.v, e] }

theorem poke (h : SameView a b) (ea : Nat) (c : Byte) : SameView (a.poke ea c) (b.poke ea c) :=
  { h with mem := fun k => by simp only [State.peek_poke, h.mem] }

/-- FAULT is not in the view, so the two states may even raise different bits. -/
theorem raise (h : SameView a b) (x y : FaultBit) : SameView (a.raise x) (b.raise y) := { h with }

theorem setPc (h : SameView a b) {p q : Word} (e : q = p) : SameView (a.setPc p) (b.setPc q) := { h with pc := e }

theorem advance (h : SameView a b) : SameView a.advance b.advance :=
  { h with pc := by simp only [State.advance_pc, h.pc] }

theorem setI (h : SameView a b) {p q : Word} (e : q = p) : SameView (a.setI p) (b.setI q) := { h with i := e }

theorem setDt (h : SameView a b) {c d : Byte} (e : d = c) : SameView (a.setDt c) (b.setDt d) := { h with dt := e }

/-- ST is not in the view. -/
theorem setSt (h : SameView a b) (c d : Byte) : SameView (a.setSt c) (b.setSt d) := { h with }

/-- REDRAW is not in the view. -/
theorem setRedraw (h : SameView a b) (c d : Bool) : SameView (a.setRedraw c) (b.setRedraw d) := { h with }

theorem clearDisp (h : SameView a b) : SameView a.clearDisp b.clearDisp := { h with disp := rfl }

theorem flipDisp (h : SameView a b) (p : Nat) : SameView (a.flipDisp p) (b.flipDisp p) :=
  { h with disp := by simp only [State.flipDisp_disp, h.disp] }

theorem freshRnd (h : SameView a b) : SameView a.freshRnd b.freshRnd :=
  { h with
    rnd := by simp only [State.freshRnd_rnd, h.draws]
    draws := by simp only [State.freshRnd_draws, h.draws] }

theorem memWrite (h : SameView a b) {ea eb : Nat} {c d : Byte} (he : eb = ea) (e : d = c) :
    SameView (Machine.memWrite ea c a) (Machine.memWrite eb d b) := by
  subst he e
  by_cases hle : eb ≤ 0xFFF
  · rw [memWrite_in hle, memWrite_in hle]; exact h.poke eb d
  · rw [memWrite_out (Nat.lt_of_not_le hle), memWrite_out (Nat.lt_of_not_le hle)]; exact h.raise .ar .ar

theorem skipIf (h : SameView a b) {c d : Bool} (e : d = c) : SameView (Machine.skipIf c a) (Machine.skipIf d b) := by
  subst e
  cases d
  · exact h
  · exact h.advance

theorem keySkip (h : SameView a b) (down : Bool) {k l : Byte} (e : l = k) :
    SameView (Machine.keySkip down k a) (Machine.keySkip down l b) := by
  subst e
  unfold Machine.keySkip
  split
  · exact h.raise .kr .kr
  · exact h.skipIf (by rw [h.keyDown])

/-! ### The stack: only the entries in use are compared -/

/-- RET uncovers nothing: the entries in use after it were in use before (R25). -/
theorem popped (h : SameView a b) (hsp : 0 < a.sp) :
    SameView { a with pc := a.stackAt (a.sp - 1), sp := a.sp - 1 }
      { b with pc := b.stackAt (b.sp - 1), sp := b.sp - 1 } :=
  { h with
    pc := by simp only [h.sp]; exact h.stack _ (by omega)
    sp := by simp only [h.sp]
    stack := fun k hk => h.stack k (Nat.lt_of_lt_of_le hk (Nat.sub_le _ _)) }

/-- CALL writes the entry it brings into use, so nothing stale shows. Where SP is above STACK_DEPTH, which no run
reaches (log entry 9), that entry is past the end of both arrays and reads 0. -/
theorem stackAt_pushed (h : SameView a b) (n m : Nat) {k : Nat} (hk : k < a.sp + 1) :
    State.stackAt { b with stack := b.stack.set b.sp b.pc, sp := m } k =
      State.stackAt { a with stack := a.stack.set a.sp a.pc, sp := n } k := by
  by_cases hRoom : a.sp < a.stackDepth
  · rw [stackAt_set _ _ _ hRoom, stackAt_set _ _ _ (by rw [h.sp, h.stackDepth]; exact hRoom), h.sp, h.pc]
    split
    · rfl
    · exact h.stack k (by omega)
  · have hDepth : b.stack.length = a.stack.length := h.stackDepth
    have hPast : a.stack.length ≤ a.sp := Nat.le_of_not_lt hRoom
    simp only [State.stackAt, h.sp, List.set_eq_of_length_le hPast, List.set_eq_of_length_le (hDepth ▸ hPast)]
    by_cases hks : k < a.sp
    · exact h.stack k hks
    · rw [List.getD_eq_default _ _ (by omega), List.getD_eq_default _ _ (by omega)]

theorem pushed (h : SameView a b) (p : Word) :
    SameView { a with pc := p, stack := a.stack.set a.sp a.pc, sp := a.sp + 1 }
      { b with pc := p, stack := b.stack.set b.sp b.pc, sp := b.sp + 1 } :=
  { h with
    pc := rfl
    sp := by simp only [h.sp]
    stack := fun _ hk => h.stackAt_pushed (a.sp + 1) (b.sp + 1) hk
    params := by rw [params_set, params_set, h.params] }

/-! ### The loops -/

/-- A loop whose every pass keeps the view keeps it. -/
theorem foldl {α : Type} {f : State → α → State} (hf : ∀ a b k, SameView a b → SameView (f a k) (f b k))
    (l : List α) (h : SameView a b) : SameView (l.foldl f a) (l.foldl f b) := by
  induction l generalizing a b with
  | nil => exact h
  | cons k l ih => exact ih (hf a b k h)

theorem drawBit (ox oy r : Nat) (row : Byte) (a b : State) (c : Nat) (h : SameView a b) :
    SameView (Machine.drawBit ox oy r row a c) (Machine.drawBit ox oy r row b c) := by
  unfold Machine.drawBit
  rw [h.disp]
  split
  · refine flipDisp ?_ _
    split
    · exact h.setV regF rfl
    · exact h
  · exact h

theorem drawRow (ox oy : Nat) (a b : State) (r : Nat) (h : SameView a b) :
    SameView (Machine.drawRow ox oy a r) (Machine.drawRow ox oy b r) := by
  rw [drawRow_eq, drawRow_eq, h.spriteRow, h.indexPlus]
  refine foldl (drawBit ox oy r _) _ ?_
  split
  · exact h
  · exact h.raise .ar .ar

theorem storeReg (a b : State) (k : RegIdx) (h : SameView a b) :
    SameView (Machine.storeReg a k) (Machine.storeReg b k) := h.memWrite (h.indexPlus k.val) (h.getV k)

theorem loadReg (a b : State) (k : RegIdx) (h : SameView a b) :
    SameView (Machine.loadReg a k) (Machine.loadReg b k) := by
  rw [loadReg_eq, loadReg_eq, h.indexPlus]
  split
  · exact h.setV k (h.mem _)
  · exact h.raise .ar .ar

/-! ### The meanings that read V again after the flag is written (R177 to R180) -/

/-- A flag and then a register, the register's byte computed from V after the flag. -/
theorem flagThenReg (h : SameView a b) (x : RegIdx) {f g : Byte} (e : g = f) (val : (RegIdx → Byte) → Byte) :
    SameView ((writeFlag f a).setV x (val (writeFlag f a).getV)) ((writeFlag g b).setV x (val (writeFlag g b).getV)) := by
  have h1 : SameView (writeFlag f a) (writeFlag g b) := h.setV regF e
  exact h1.setV x (congrArg val (funext h1.getV))

end SameView

/-! ### Every instruction and every STEP -/

/-- Every instruction answers alike on two states that look alike. -/
theorem exec_sameView (i : Instr) {a b : State} (h : SameView a b) :
    ∃ t u, exec i a = .next t ∧ exec i b = .next u ∧ SameView t u := by
  cases i with
  | cls => exact ⟨_, _, rfl, rfl, h.clearDisp.setRedraw true true⟩
  | ret =>
    rcases Nat.eq_zero_or_pos a.sp with hsp | hsp
    · exact ⟨_, _, execRet_empty hsp, execRet_empty (h.sp.trans hsp), h.raise .su .su⟩
    · exact ⟨_, _, execRet_entry hsp, execRet_entry (h.sp.symm ▸ hsp), h.popped hsp⟩
  | call nnn =>
    by_cases hsp : a.sp = a.stackDepth
    · exact ⟨_, _, execCall_full nnn hsp, execCall_full nnn (by rw [h.sp, h.stackDepth, hsp]), h.raise .so .so⟩
    · exact ⟨_, _, execCall_room nnn hsp, execCall_room nnn (by rwa [h.sp, h.stackDepth]), h.pushed _⟩
  | jp _ => exact ⟨_, _, rfl, rfl, h.setPc rfl⟩
  | jpV0 _ => exact ⟨_, _, rfl, rfl, h.setPc (by rw [h.getV])⟩
  | seImm _ _ | sneImm _ _ => exact ⟨_, _, rfl, rfl, h.skipIf (by rw [h.getV])⟩
  | seReg _ _ | sneReg _ _ => exact ⟨_, _, rfl, rfl, h.skipIf (by rw [h.getV, h.getV])⟩
  | ldImm x _ => exact ⟨_, _, rfl, rfl, h.setV x rfl⟩
  | addImm x _ => exact ⟨_, _, rfl, rfl, h.setV x (by rw [h.getV])⟩
  | ldReg x y => exact ⟨_, _, rfl, rfl, h.setV x (h.getV y)⟩
  | orReg x _ | andReg x _ | xorReg x _ => exact ⟨_, _, rfl, rfl, h.setV x (by rw [h.getV, h.getV])⟩
  | addReg x y =>
    have hFlag := h.setV regF (congrArg₂ carryFlag (h.getV x) (h.getV y))
    exact ⟨_, _, rfl, rfl, hFlag.setV x (by rw [h.getV, h.getV])⟩
  | subReg x y =>
    exact ⟨_, _, rfl, rfl, h.flagThenReg x (congrArg₂ noBorrowFlag (h.getV x) (h.getV y)) fun v => v x - v y⟩
  | subnReg x y =>
    exact ⟨_, _, rfl, rfl, h.flagThenReg x (congrArg₂ noBorrowFlag (h.getV y) (h.getV x)) fun v => v y - v x⟩
  | shr x => exact ⟨_, _, rfl, rfl, h.flagThenReg x (congrArg lowBitFlag (h.getV x)) fun v => v x >>> 1⟩
  | shl x => exact ⟨_, _, rfl, rfl, h.flagThenReg x (congrArg highBitFlag (h.getV x)) fun v => v x <<< 1⟩
  | rnd x kk => exact ⟨_, _, rfl, rfl, h.freshRnd.setV x (by rw [h.rnd])⟩
  | ldI _ => exact ⟨_, _, rfl, rfl, h.setI rfl⟩
  | addI _ => exact ⟨_, _, rfl, rfl, h.setI (by rw [h.i, h.getV])⟩
  | ldF _ => exact ⟨_, _, rfl, rfl, h.setI (by rw [h.getV])⟩
  | drw x y n =>
    refine ⟨_, _, rfl, rfl, SameView.setRedraw ?_ true true⟩
    rw [h.getV, h.getV]
    exact SameView.foldl (SameView.drawRow _ _) _ (h.setV regF rfl)
  | skp x | sknp x => exact ⟨_, _, rfl, rfl, h.keySkip _ (h.getV x)⟩
  | ldVxDt x => exact ⟨_, _, rfl, rfl, h.setV x h.dt⟩
  | ldVxK x =>
    cases hk : scanKeys a with
    | none => exact ⟨_, _, execLdVxK_none x hk, execLdVxK_none x (h.scanKeys.trans hk), h.setPc (by rw [h.pc])⟩
    | some k => exact ⟨_, _, execLdVxK_some x hk, execLdVxK_some x (h.scanKeys.trans hk), h.setV x rfl⟩
  | ldDtVx x => exact ⟨_, _, rfl, rfl, h.setDt (h.getV x)⟩
  | ldStVx _ => exact ⟨_, _, rfl, rfl, h.setSt _ _⟩
  | ldB x =>
    have h1 := h.memWrite (h.indexPlus 0) (congrArg hundreds (h.getV x))
    have h2 := h1.memWrite (h1.indexPlus 1) (congrArg tens (h.getV x))
    exact ⟨_, _, rfl, rfl, h2.memWrite (h2.indexPlus 2) (congrArg ones (h.getV x))⟩
  | storeRegs _ => exact ⟨_, _, rfl, rfl, SameView.foldl SameView.storeReg _ h⟩
  | loadRegs _ => exact ⟨_, _, rfl, rfl, SameView.foldl SameView.loadReg _ h⟩
  | ignored0 _ | ignored8 _ | ignoredE _ | ignoredF _ => exact ⟨_, _, rfl, rfl, h⟩

/-- Two states that look alike fetch the same word, and so step alike. -/
theorem step_sameView {a b : State} (h : SameView a b) :
    ∃ t u, step a = .next t ∧ step b = .next u ∧ SameView t u := by
  unfold step
  rw [h.fetchWord]
  cases fetchWord a with
  | none => exact ⟨_, _, rfl, rfl, h.raise .fr .fr⟩
  | some w => exact exec_sameView (decodeWord w) h.advance

/-- Settles O48, by the updates of each instruction made on both states at once. -/
theorem unreadStateNeverReachesTheProgram : Obligations.UnreadStateNeverReachesTheProgram := by
  intro a b t u h ha hb
  obtain ⟨t', u', ht, hu, hView⟩ := step_sameView h
  cases ha.symm.trans ht
  cases hb.symm.trans hu
  exact hView

end Sys2Proof.Machine
end

section
/-! PROOFS. MEM (spec/20_memory.md): the fetch, range-checked accesses, self-modifying code, and the font region. -/

namespace Sys2Proof.Machine

/-! ### The fetch and the range-checked accesses -/

/-- Settles O9: the fetch's two branches, and the number of two bytes put together. -/
theorem fetchReadsTwoBytesBigEndian : Obligations.FetchReadsTwoBytesBigEndian := fun _ =>
  ⟨fun h => ⟨_, fetchWord_in h, toNat_wordOfBytes _ _⟩, fetchWord_out⟩

/-- Settles O38: in range an access is a peek or a poke, out of range it only raises AR. -/
theorem dataAccessesAreRangeChecked : Obligations.DataAccessesAreRangeChecked := by
  refine fun s k b => ⟨rfl, fun hIn => ⟨memRead_in hIn s, ?_, ?_⟩,
    fun hOut => ⟨memRead_out hOut s, memWrite_out hOut b s⟩⟩
  · simp [memWrite_peek, hIn]
  · rw [memWrite_in hIn]
    exact Frame.poke rfl s b

/-! ### Self-modifying code (R76) -/

/-- Fx55 stores V[k] at I + k, where that address exists, and keeps PC (R214). -/
theorem execStoreRegs_stores (x : RegIdx) (s : State) :
    ∃ t, execStoreRegs x s = .next t ∧ t.pc = s.pc ∧
      ∀ k : RegIdx, k.val ≤ x.val → indexPlus s k.val ≤ 0xFFF → t.peek (indexPlus s k.val) = s.getV k := by
  obtain ⟨hIn, -, -, hRest⟩ := storeRegs_spec s (x.val + 1) x.isLt
  exact ⟨_, rfl, by rw [hRest], fun k hk => hIn k.val (Nat.lt_succ_of_le hk)⟩

/-- Settles O39: V0 and V1 stand at I and I + 1, which are PC and PC + 1, and both exist. -/
theorem storedCodeIsFetchedNext : Obligations.StoredCodeIsFetchedNext := by
  intro x s hx hi hpc
  obtain ⟨t, ht, htpc, hStored⟩ := execStoreRegs_stores x s
  have hEa : ∀ k, indexPlus s k = s.pc.toNat + k := fun k => by rw [indexPlus, hi]
  have h0 : t.peek s.pc.toNat = s.getV 0 := by
    simpa [hEa] using hStored 0 (Nat.zero_le _) (by rw [hEa]; exact Nat.le_succ_of_le hpc)
  have h1 : t.peek (s.pc.toNat + 1) = s.getV 1 := by
    simpa [hEa] using hStored 1 hx (by rw [hEa]; exact Nat.succ_le_succ hpc)
  have hFetch : fetchWord t = some (wordOfBytes (s.getV 0) (s.getV 1)) := by
    rw [fetchWord_in (by rwa [htpc]), htpc, h0, h1]
  exact ⟨t, _, ht, hFetch, toNat_wordOfBytes _ _⟩

/-! ### Bytes that no STEP stores to -/

/-- The advance keeps I, so what an instruction may write is the same before and after it. -/
theorem accessMatrix_advance (i : Instr) (s : State) : accessMatrix i s.advance = accessMatrix i s := by
  cases i <;> rfl

/-- In range, the STEP's stores are those of the decoded instruction's row of R35. -/
theorem stepStores_in {s : State} (h : s.pc.toNat ≤ 0xFFE) (a : Nat) :
    stepStores s a ↔
      (accessMatrix (decodeWord (wordOfBytes (s.peek s.pc.toNat) (s.peek (s.pc.toNat + 1)))) s).bytes a := by
  simp only [stepStores, fetchWord_in h]

/-- A STEP keeps every byte it does not store to. -/
theorem step_peek {s t : State} {a : Nat} (hStep : step s = .next t) (ha : ¬ stepStores s a) : t.peek a = s.peek a := by
  rcases step_cases s with ⟨-, hs⟩ | ⟨hpc, hs⟩
  · cases hStep.symm.trans hs
    exact State.peek_raise s .fr a
  · rw [stepStores_in hpc, ← accessMatrix_advance] at ha
    exact (accessMatrixBoundsEveryInstruction _ _ _ (hs.symm.trans hStep)).bytes a ha

/-- A run keeps every byte of a region that none of its STEPs stores to. -/
theorem run_peek {P : Nat → Prop} {n : Nat} {s t : State} (hAvoid : stepsAvoid P n s)
    (hRun : Host.Core.run Sys2Proof.core n s = .next t) {a : Nat} (ha : P a) : t.peek a = s.peek a := by
  induction n generalizing s with
  | zero => cases hRun; rfl
  | succ n ih =>
    obtain ⟨u, hu⟩ := step_next s
    obtain ⟨hFirst, hLater⟩ := hAvoid
    rw [run_succ_next hu] at hRun
    calc t.peek a = u.peek a := ih (hLater u hu) hRun
      _ = s.peek a := step_peek hu (hFirst a ha)

/-- Settles O52: the font region is one that a run keeps. -/
theorem fontSurvivesStepsThatAvoidIt : Obligations.FontSurvivesStepsThatAvoidIt :=
  fun _ _ _ hAvoid hRun _ hlo hhi => run_peek hAvoid hRun ⟨hlo, hhi⟩

/-! ### The font at reset (R62) -/

/-- Byte j of FONT stands at 0x050 + j right after reset. -/
theorem peek_resetWith_font (p : Config.Params) {j : Nat} (h : j < 80) :
    p.font[j]? = some ((State.resetWith p).peek (0x050 + j)) := initialByte_font p.font h

/-- Settles O58: the default table byte by byte, and any FONT from what an unlisted address reads as. -/
theorem fontStandsAt0x050 : Obligations.FontStandsAt0x050 := by
  refine ⟨by decide, List.length_replicate, fun p g r hg hr => ?_⟩
  rw [Nat.add_assoc]
  exact peek_resetWith_font p (by omega)

end Sys2Proof.Machine
end

section
/-! PROOFS. The decoder and the encoder (spec/30_encoding.md R93 to R102): what each family decodes to, that decoding
undoes encoding, what encoding a decoded word drops, and that a word matches its own row of R97 and no other. -/

namespace Sys2Proof

open Machine

variable {w : Word} {f c d n : Nibble} {kk : Byte}

/-! ### The fields and the bytes of a word -/

/-- Settles O1: each field as the quotient and the remainder it is. -/
theorem wordFieldsAreTheBitsR94Names : Obligations.WordFieldsAreTheBitsR94Names := fun w =>
  ⟨fieldFamily_toNat w, fieldX_val w, fieldY_val w, fieldNnn_toNat w, fieldKk_toNat w, fieldN_toNat w⟩

/-- Settles O2: the word is the two bytes put together. -/
theorem decoderConsumesTwoBigEndianBytes : Obligations.DecoderConsumesTwoBigEndianBytes :=
  ⟨fun hi lo _ => ⟨wordOfBytes hi lo, toNat_wordOfBytes hi lo, rfl⟩, rfl, fun _ => rfl⟩

/-- Settles O3: eleven closed words. -/
theorem wordsWrittenFromTheOpcodeMapDecode : Obligations.WordsWrittenFromTheOpcodeMapDecode := by
  unfold Obligations.WordsWrittenFromTheOpcodeMapDecode
  decide

/-! ### The families with a sub-dispatch key (R96) -/

theorem decodeWord_family0 (h : fieldFamily w = 0x0) : decodeWord w = decodeFamily0 w := by simp [decodeWord, h]

theorem decodeWord_family8 (h : fieldFamily w = 0x8) : decodeWord w = decodeFamily8 w := by simp [decodeWord, h]

theorem decodeWord_familyE (h : fieldFamily w = 0xE) : decodeWord w = decodeFamilyE w := by simp [decodeWord, h]

theorem decodeWord_familyF (h : fieldFamily w = 0xF) : decodeWord w = decodeFamilyF w := by simp [decodeWord, h]

/-! A sub-code that is not listed falls through to the ignored word of its family (R99). -/

theorem decodeFamily0_ignored (h : fieldKk w ∉ subCodes0) : decodeFamily0 w = .ignored0 (fieldNnn w) := by
  simp [subCodes0] at h
  simp [decodeFamily0, h]

theorem decodeFamily8_ignored (h : fieldN w ∉ subCodes8) : decodeFamily8 w = .ignored8 (fieldNnn w) := by
  simp [subCodes8] at h
  simp [decodeFamily8, h]

theorem decodeFamilyE_ignored (h : fieldKk w ∉ subCodesE) : decodeFamilyE w = .ignoredE (fieldNnn w) := by
  simp [subCodesE] at h
  simp [decodeFamilyE, h]

theorem decodeFamilyF_ignored (h : fieldKk w ∉ subCodesF) : decodeFamilyF w = .ignoredF (fieldNnn w) := by
  simp [subCodesF] at h
  simp [decodeFamilyF, h]

/-! ### Decoding undoes encoding -/

/-- Settles O6, family by family: the family nibble, and in four families the sub-code, select the arm that reads the
operands back from the fields they were put in; an ignored word's sub-code is in no list. -/
theorem decodeOfEncodeIsTheInstruction : Obligations.DecodeOfEncodeIsTheInstruction := by
  intro i hwf
  cases i with
  | jp _ | call _ | ldI _ | jpV0 _ | seImm _ _ | sneImm _ _ | ldImm _ _ | addImm _ _ | rnd _ _ | seReg _ _ | sneReg _ _
  | drw _ _ _ => simp [encode, decodeWord]
  | cls | ret => simp [encode, decodeWord_family0, decodeFamily0]
  | ldReg _ _ | orReg _ _ | andReg _ _ | xorReg _ _ | addReg _ _ | subReg _ _ | shr _ | subnReg _ _ | shl _ =>
    simp [encode, decodeWord_family8, decodeFamily8]
  | skp _ | sknp _ => simp [encode, decodeWord_familyE, decodeFamilyE]
  | ldVxDt _ | ldVxK _ | ldDtVx _ | ldStVx _ | addI _ | ldF _ | ldB _ | storeRegs _ | loadRegs _ =>
    simp [encode, decodeWord_familyF, decodeFamilyF]
  | ignored0 low =>
    have hSub : low.extractLsb' 0 8 ∉ subCodes0 := by simpa [Instr.wf] using hwf
    simp [encode, decodeWord_family0, decodeFamily0_ignored, hSub]
  | ignored8 low =>
    have hSub : low.extractLsb' 0 4 ∉ subCodes8 := by simpa [Instr.wf] using hwf
    simp [encode, decodeWord_family8, decodeFamily8_ignored, hSub]
  | ignoredE low =>
    have hSub : low.extractLsb' 0 8 ∉ subCodesE := by simpa [Instr.wf] using hwf
    simp [encode, decodeWord_familyE, decodeFamilyE_ignored, hSub]
  | ignoredF low =>
    have hSub : low.extractLsb' 0 8 ∉ subCodesF := by simpa [Instr.wf] using hwf
    simp [encode, decodeWord_familyF, decodeFamilyF_ignored, hSub]

/-! ### The ignored words (R99) -/

theorem fieldFamily_of_toNat (h : w.toNat / 4096 = f.toNat) : fieldFamily w = f :=
  BitVec.eq_of_toNat_eq ((fieldFamily_toNat w).trans h)

theorem fieldKk_not_mem_of_toNat {codes : List Byte} (h : w.toNat % 256 ∉ codes.map BitVec.toNat) :
    fieldKk w ∉ codes := fun hk => h (fieldKk_toNat w ▸ List.mem_map_of_mem hk)

/-- The numbers 8 to 0xD and 0xF are no sub-code of family 0x8. -/
theorem fieldN_not_mem_of_toNat (h : w.toNat % 16 ∈ [0x8, 0x9, 0xA, 0xB, 0xC, 0xD, 0xF]) : fieldN w ∉ subCodes8 := by
  have hListed : ∀ n ∈ subCodes8.map BitVec.toNat, n ∉ [0x8, 0x9, 0xA, 0xB, 0xC, 0xD, 0xF] := by decide
  exact fun hn => hListed _ (fieldN_toNat w ▸ List.mem_map_of_mem hn) h

/-- Settles O5: a sub-code outside its family's list, said of its number. -/
theorem ignoredWordsDoNothing : Obligations.IgnoredWordsDoNothing := by
  refine ⟨fun w hf hk => ?_, fun w hf hn => ?_, fun w hf hk => ?_, fun w hf hk => ?_, fun _ _ => ⟨rfl, rfl, rfl, rfl⟩⟩
  · rw [decodeWord_family0 (fieldFamily_of_toNat hf), decodeFamily0_ignored (fieldKk_not_mem_of_toNat hk)]
  · rw [decodeWord_family8 (fieldFamily_of_toNat hf), decodeFamily8_ignored (fieldN_not_mem_of_toNat hn)]
  · rw [decodeWord_familyE (fieldFamily_of_toNat hf), decodeFamilyE_ignored (fieldKk_not_mem_of_toNat hk)]
  · rw [decodeWord_familyF (fieldFamily_of_toNat hf), decodeFamilyF_ignored (fieldKk_not_mem_of_toNat hk)]

/-! ### A word put together again from its fields -/

theorem word4_fields (w : Word) :
    word4 (fieldFamily w) (regNibble (fieldX w)) (regNibble (fieldY w)) (fieldN w) = w :=
  BitVec.eq_of_toNat_eq (by
    rw [word4_toNat, regNibble_toNat, regNibble_toNat, fieldFamily_toNat, fieldX_val, fieldY_val, fieldN_toNat]
    omega)

theorem word4_and_word4 (a b c d a' b' c' d' : Nibble) :
    word4 a b c d &&& word4 a' b' c' d' = word4 (a &&& a') (b &&& b') (c &&& c') (d &&& d') := by
  simp only [word4, ← BitVec.and_append]

/-- A mask of whole nibbles keeps some of a word's nibbles and clears the others. -/
theorem and_word4 (w : Word) (a b c d : Nibble) :
    w &&& word4 a b c d = word4 (fieldFamily w &&& a) (regNibble (fieldX w) &&& b) (regNibble (fieldY w) &&& c)
      (fieldN w &&& d) := by
  rw [← word4_and_word4, word4_fields]

theorem nibble_and_F (a : Nibble) : a &&& 0xF#4 = a := BitVec.and_allOnes

theorem word_and_FFFF (w : Word) : w &&& 0xFFFF#16 = w := BitVec.and_allOnes

/-! The word of a family and operands, as the significant bits of a word with these fields. -/

section
variable (hf : fieldFamily w = f)
include hf

theorem wordNnn_of_fields : wordNnn f (fieldNnn w) = w &&& 0xFFFF#16 := by
  refine BitVec.eq_of_toNat_eq ?_
  rw [word_and_FFFF, wordNnn_toNat, ← hf, fieldFamily_toNat, fieldNnn_toNat]
  omega

theorem wordXKk_of_fields (hk : fieldKk w = kk) : wordXKk f (fieldX w) kk = w &&& 0xFFFF#16 := by
  refine BitVec.eq_of_toNat_eq ?_
  rw [word_and_FFFF, wordXKk_toNat, ← hf, ← hk, fieldFamily_toNat, fieldX_val, fieldKk_toNat]
  omega

theorem wordXYN_of_fields (hn : fieldN w = n) : wordXYN f (fieldX w) (fieldY w) n = w &&& 0xFFFF#16 := by
  rw [word_and_FFFF, wordXYN, ← hf, ← hn, word4_fields]

theorem wordXYN_clear_n : wordXYN f (fieldX w) (fieldY w) 0 = w &&& 0xFFF0#16 := by
  rw [show 0xFFF0#16 = word4 0xF#4 0xF#4 0xF#4 0#4 from rfl, and_word4, hf]
  simp only [nibble_and_F, BitVec.and_zero]
  rfl

theorem wordXYN_clear_y (hn : fieldN w = n) : wordXYN f (fieldX w) 0 n = w &&& 0xFF0F#16 := by
  rw [show 0xFF0F#16 = word4 0xF#4 0xF#4 0#4 0xF#4 from rfl, and_word4, hf, hn]
  simp only [nibble_and_F, BitVec.and_zero]
  rfl

theorem wordXKk_clear_x (hk : fieldKk w = c ++ d) : word4 f 0 c d = w &&& 0xF0FF#16 :=
  ((and_F0FF w f c d).mpr ⟨hf, hk⟩).symm

end

/-! ### Encoding a decoded word -/

/-- `i` stands for a word, which is `w` without the bits that `i` gives no meaning. -/
structure Reencodes (w : Word) (i : Instr) : Prop where
  wf : i.wf = true
  encode_eq : encode i = w &&& significantBits i

theorem extractLsb'_fieldNnn_kk (w : Word) : (fieldNnn w).extractLsb' 0 8 = fieldKk w := by
  rw [← fieldKk_wordNnn (fieldFamily w), wordNnn_of_fields rfl, word_and_FFFF]

theorem extractLsb'_fieldNnn_n (w : Word) : (fieldNnn w).extractLsb' 0 4 = fieldN w := by
  rw [← fieldN_wordNnn (fieldFamily w), wordNnn_of_fields rfl, word_and_FFFF]

theorem decodeFamily0_reencodes (hf : fieldFamily w = 0x0) : Reencodes w (decodeFamily0 w) := by
  by_cases hk : fieldKk w ∈ subCodes0
  · simp only [subCodes0, List.mem_cons, List.not_mem_nil, or_false] at hk
    rcases hk with hk | hk <;> rw [decodeFamily0, hk]
    · exact ⟨rfl, wordXKk_clear_x (c := 0xE) (d := 0x0) hf hk⟩
    · exact ⟨rfl, wordXKk_clear_x (c := 0xE) (d := 0xE) hf hk⟩
  · rw [decodeFamily0_ignored hk]
    exact ⟨by simpa [Instr.wf, extractLsb'_fieldNnn_kk] using hk, wordNnn_of_fields hf⟩

theorem decodeFamily8_reencodes (hf : fieldFamily w = 0x8) : Reencodes w (decodeFamily8 w) := by
  by_cases hn : fieldN w ∈ subCodes8
  · simp only [subCodes8, List.mem_cons, List.not_mem_nil, or_false] at hn
    rcases hn with hn | hn | hn | hn | hn | hn | hn | hn | hn <;> rw [decodeFamily8, hn]
    · exact ⟨rfl, wordXYN_of_fields hf hn⟩
    · exact ⟨rfl, wordXYN_of_fields hf hn⟩
    · exact ⟨rfl, wordXYN_of_fields hf hn⟩
    · exact ⟨rfl, wordXYN_of_fields hf hn⟩
    · exact ⟨rfl, wordXYN_of_fields hf hn⟩
    · exact ⟨rfl, wordXYN_of_fields hf hn⟩
    · exact ⟨rfl, wordXYN_clear_y hf hn⟩
    · exact ⟨rfl, wordXYN_of_fields hf hn⟩
    · exact ⟨rfl, wordXYN_clear_y hf hn⟩
  · rw [decodeFamily8_ignored hn]
    exact ⟨by simpa [Instr.wf, extractLsb'_fieldNnn_n] using hn, wordNnn_of_fields hf⟩

theorem decodeFamilyE_reencodes (hf : fieldFamily w = 0xE) : Reencodes w (decodeFamilyE w) := by
  by_cases hk : fieldKk w ∈ subCodesE
  · simp only [subCodesE, List.mem_cons, List.not_mem_nil, or_false] at hk
    rcases hk with hk | hk <;> rw [decodeFamilyE, hk] <;> exact ⟨rfl, wordXKk_of_fields hf hk⟩
  · rw [decodeFamilyE_ignored hk]
    exact ⟨by simpa [Instr.wf, extractLsb'_fieldNnn_kk] using hk, wordNnn_of_fields hf⟩

theorem decodeFamilyF_reencodes (hf : fieldFamily w = 0xF) : Reencodes w (decodeFamilyF w) := by
  by_cases hk : fieldKk w ∈ subCodesF
  · simp only [subCodesF, List.mem_cons, List.not_mem_nil, or_false] at hk
    rcases hk with hk | hk | hk | hk | hk | hk | hk | hk | hk <;> rw [decodeFamilyF, hk] <;>
      exact ⟨rfl, wordXKk_of_fields hf hk⟩
  · rw [decodeFamilyF_ignored hk]
    exact ⟨by simpa [Instr.wf, extractLsb'_fieldNnn_kk] using hk, wordNnn_of_fields hf⟩

theorem nibble_cases : ∀ f : Nibble, f = 0x0 ∨ f = 0x1 ∨ f = 0x2 ∨ f = 0x3 ∨ f = 0x4 ∨ f = 0x5 ∨ f = 0x6 ∨ f = 0x7 ∨
    f = 0x8 ∨ f = 0x9 ∨ f = 0xA ∨ f = 0xB ∨ f = 0xC ∨ f = 0xD ∨ f = 0xE ∨ f = 0xF := by decide

/-- Every word decodes to an instruction that stands for it, up to don't-care bits: over the sixteen families. -/
theorem decodeWord_reencodes (w : Word) : Reencodes w (decodeWord w) := by
  rw [decodeWord]
  rcases nibble_cases (fieldFamily w) with
    hf | hf | hf | hf | hf | hf | hf | hf | hf | hf | hf | hf | hf | hf | hf | hf <;> rw [hf]
  · exact decodeFamily0_reencodes hf
  · exact ⟨rfl, wordNnn_of_fields hf⟩
  · exact ⟨rfl, wordNnn_of_fields hf⟩
  · exact ⟨rfl, wordXKk_of_fields hf rfl⟩
  · exact ⟨rfl, wordXKk_of_fields hf rfl⟩
  · exact ⟨rfl, wordXYN_clear_n hf⟩
  · exact ⟨rfl, wordXKk_of_fields hf rfl⟩
  · exact ⟨rfl, wordXKk_of_fields hf rfl⟩
  · exact decodeFamily8_reencodes hf
  · exact ⟨rfl, wordXYN_clear_n hf⟩
  · exact ⟨rfl, wordNnn_of_fields hf⟩
  · exact ⟨rfl, wordNnn_of_fields hf⟩
  · exact ⟨rfl, wordXKk_of_fields hf rfl⟩
  · exact ⟨rfl, wordXYN_of_fields hf rfl⟩
  · exact decodeFamilyE_reencodes hf
  · exact decodeFamilyF_reencodes hf

/-- Settles O7. -/
theorem encodeOfDecodeClearsOnlyDontCareBits : Obligations.EncodeOfDecodeClearsOnlyDontCareBits := fun w =>
  ⟨(decodeWord_reencodes w).wf, (decodeWord_reencodes w).encode_eq⟩

/-! ### The rows of the opcode map (R97, R101) -/

/-- The encoding of a well-formed instruction matches its own row, or none if it is an ignored word (R97, R99). -/
theorem encode_rowMatch (i : Instr) : Laws.RowMatch.Statement i :=
  match i with
  | .cls => Laws.RowMatch.cls
  | .ret => Laws.RowMatch.ret
  | .jp nnn => Laws.RowMatch.jp nnn
  | .call nnn => Laws.RowMatch.call nnn
  | .seImm x kk => Laws.RowMatch.seImm x kk
  | .sneImm x kk => Laws.RowMatch.sneImm x kk
  | .seReg x y => Laws.RowMatch.seReg x y
  | .ldImm x kk => Laws.RowMatch.ldImm x kk
  | .addImm x kk => Laws.RowMatch.addImm x kk
  | .ldReg x y => Laws.RowMatch.ldReg x y
  | .orReg x y => Laws.RowMatch.orReg x y
  | .andReg x y => Laws.RowMatch.andReg x y
  | .xorReg x y => Laws.RowMatch.xorReg x y
  | .addReg x y => Laws.RowMatch.addReg x y
  | .subReg x y => Laws.RowMatch.subReg x y
  | .shr x => Laws.RowMatch.shr x
  | .subnReg x y => Laws.RowMatch.subnReg x y
  | .shl x => Laws.RowMatch.shl x
  | .sneReg x y => Laws.RowMatch.sneReg x y
  | .ldI nnn => Laws.RowMatch.ldI nnn
  | .jpV0 nnn => Laws.RowMatch.jpV0 nnn
  | .rnd x kk => Laws.RowMatch.rnd x kk
  | .drw x y n => Laws.RowMatch.drw x y n
  | .skp x => Laws.RowMatch.skp x
  | .sknp x => Laws.RowMatch.sknp x
  | .ldVxDt x => Laws.RowMatch.ldVxDt x
  | .ldVxK x => Laws.RowMatch.ldVxK x
  | .ldDtVx x => Laws.RowMatch.ldDtVx x
  | .ldStVx x => Laws.RowMatch.ldStVx x
  | .addI x => Laws.RowMatch.addI x
  | .ldF x => Laws.RowMatch.ldF x
  | .ldB x => Laws.RowMatch.ldB x
  | .storeRegs x => Laws.RowMatch.storeRegs x
  | .loadRegs x => Laws.RowMatch.loadRegs x
  | .ignored0 low => Laws.RowMatch.ignored0 low
  | .ignored8 low => Laws.RowMatch.ignored8 low
  | .ignoredE low => Laws.RowMatch.ignoredE low
  | .ignoredF low => Laws.RowMatch.ignoredF low

theorem opcodeRow_mem {i : Instr} {row : Word × Word} (h : opcodeRow i = some row) : row ∈ opcodeRows := by
  cases i <;> cases h <;> decide

/-- A row's mask lies in the bits its instruction gives a meaning. -/
theorem significantBits_and_mask {i : Instr} {row : Word × Word} (h : opcodeRow i = some row) :
    significantBits i &&& row.1 = row.1 := by
  cases i with
  | cls | ret => cases h; exact BitVec.and_self
  | seReg _ _ | sneReg _ _ => cases h; exact (by decide : 0xFFF0#16 &&& 0xF000#16 = 0xF000#16)
  | shr _ | shl _ => cases h; exact (by decide : 0xFF0F#16 &&& 0xF00F#16 = 0xF00F#16)
  | _ => cases h <;> exact BitVec.allOnes_and

/-- An ignored word keeps all its bits. -/
theorem significantBits_of_ignored {i : Instr} (h : opcodeRow i = none) : significantBits i = 0xFFFF#16 := by
  cases i <;> cases h <;> rfl

/-- A word matches the row of the instruction it decodes to: the bits that encoding it again clears are outside the
row's mask. -/
theorem decodeWord_matches {row : Word × Word} (h : opcodeRow (decodeWord w) = some row) : w &&& row.1 = row.2 := by
  obtain ⟨hwf, hEnc⟩ := decodeWord_reencodes w
  have hRow := encode_rowMatch (decodeWord w) hwf
  rw [h, hEnc] at hRow
  calc w &&& row.1 = w &&& significantBits (decodeWord w) &&& row.1 := by
        rw [BitVec.and_assoc, significantBits_and_mask h]
    _ = row.2 := hRow

/-- A word that decodes to an ignored instruction matches no row. -/
theorem decodeWord_matchesNoRow (h : opcodeRow (decodeWord w) = none) : Laws.matchesNoRow w := by
  obtain ⟨hwf, hEnc⟩ := decodeWord_reencodes w
  have hRow := encode_rowMatch (decodeWord w) hwf
  rw [h, hEnc, significantBits_of_ignored h, word_and_FFFF] at hRow
  exact hRow

/-- Two rows of R97 differ in a bit that both masks name. -/
theorem opcodeRows_differ : opcodeRows.Pairwise fun r q => r.2 &&& q.1 ≠ q.2 &&& r.1 := by decide

/-- No word matches two rows (R101): on the bits both masks name it would be both matches. -/
theorem opcodeRow_unique {r q : Word × Word} (hr : r ∈ opcodeRows) (hq : q ∈ opcodeRows) (hwr : w &&& r.1 = r.2)
    (hwq : w &&& q.1 = q.2) : r = q := by
  by_contra hne
  have hBoth : r.2 &&& q.1 = q.2 &&& r.1 := by
    rw [← hwr, ← hwq, BitVec.and_assoc, BitVec.and_assoc, BitVec.and_comm r.1]
  have hSymm : Std.Symm fun r q : Word × Word => r.2 &&& q.1 ≠ q.2 &&& r.1 := ⟨fun _ _ h => h.symm⟩
  exact opcodeRows_differ.forall hr hq hne hBoth

/-- Settles O4: a word matches its own row, and no word matches two. -/
theorem everyWordSelectsExactlyItsRow : Obligations.EveryWordSelectsExactlyItsRow := by
  refine fun w row hRow => ⟨fun hMatch => ?_, decodeWord_matches⟩
  cases hOwn : opcodeRow (decodeWord w) with
  | none => exact absurd hMatch (decodeWord_matchesNoRow hOwn row hRow)
  | some own => rw [opcodeRow_unique (opcodeRow_mem hOwn) hRow (decodeWord_matches hOwn) hMatch]

end Sys2Proof
end

section
/-! PROOFS. STEP (spec/30_encoding.md R90 to R92): the fetch fault that repeats, the instruction a STEP runs, where PC
goes, and which instruction reads rnd. -/

namespace Sys2Proof.Machine

/-! ### The fetch fault (R91) -/

theorem step_fetchFault {s : State} (h : 0xFFE < s.pc.toNat) : step s = .next (s.raise .fr) := by
  rcases step_cases s with ⟨-, hs⟩ | ⟨hpc, -⟩
  · exact hs
  · omega

/-- Settles O10, by induction on the number of steps: the state after a fetch fault has the same PC, and raising FR
again changes nothing. -/
theorem fetchOutOfRangeIsStuckWithFr : Obligations.FetchOutOfRangeIsStuckWithFr := by
  intro n s h
  rw [run_succ_next (step_fetchFault h)]
  show _ = Host.Outcome.next (s.raise .fr)
  induction n with
  | zero => rfl
  | succ n ih =>
    have hAgain : step (s.raise .fr) = .next (s.raise .fr) :=
      (step_fetchFault (s := s.raise .fr) h).trans (by rw [State.raise_raise])
    rw [run_succ_next hAgain, ih]

/-! ### The instruction a STEP runs (R90) -/

theorem step_decoded {s : State} (h : s.pc.toNat ≤ 0xFFE) :
    step s = exec (decodeWord (wordOfBytes (s.peek s.pc.toNat) (s.peek (s.pc.toNat + 1)))) s.advance := by
  rcases step_cases s with ⟨hpc, -⟩ | ⟨-, hs⟩
  · omega
  · exact hs

/-- Settles O8: the byte decoder reads the word that the fetch puts together, and presenting rnd is what STEP(rnd)
does first. -/
theorem stepRunsTheDecodedInstruction : Obligations.StepRunsTheDecodedInstruction := by
  refine ⟨fun s i hpc _ hDecode => ?_, fun s r t h => transact_step h⟩
  cases hDecode
  exact step_decoded hpc

theorem wordOfBytes_split (w : Word) : wordOfBytes (w.extractLsb' 8 8) (w.extractLsb' 0 8) = w := by
  refine BitVec.eq_of_toNat_eq ?_
  rw [toNat_wordOfBytes]
  simp only [BitVec.extractLsb'_toNat, Nat.shiftRight_eq_div_pow]
  omega

theorem tableWord_toNat (w : Word) : tableWord 16 w.toNat = w :=
  by
  rw [tableWord, Nat.mod_eq_of_lt w.isLt, BitVec.ofNat_toNat, BitVec.setWidth_eq]

/-- The state whose PC the fetch can use, in which `placeWord` stores. -/
def fetchable (s : State) : State := if s.pc.toNat ≤ 0xFFE then s else s.setPc (BitVec.ofNat 16 Config.progBase)

theorem fetchable_pc (s : State) : (fetchable s).pc.toNat ≤ 0xFFE := by
  unfold fetchable
  split
  · assumption
  · show 0x200 ≤ 0xFFE
    decide

theorem placeWord_eq (s : State) (w : Word) :
    placeWord s w = ((fetchable s).poke (fetchable s).pc.toNat (w.extractLsb' 8 8)).poke
      ((fetchable s).pc.toNat + 1) (w.extractLsb' 0 8) := rfl

theorem fetchWord_placeWord (s : State) (w : Word) : fetchWord (placeWord s w) = some w := by
  rw [placeWord_eq, fetchWord_in]
  · simp [wordOfBytes_split]
  · exact fetchable_pc s

/-- Settles O57: the placed word is the one fetched. -/
theorem placedWordRunsNext : Obligations.PlacedWordRunsNext := by
  intro s w
  unfold State.withFetchWord
  rw [tableWord_toNat, step, fetchWord_placeWord]
  rfl

/-! ### Where PC goes (R92)

A meaning is given the state with PC advanced, so each lemma speaks of `s.advance`, `s` being the state before the STEP. -/

/-- A skip whose condition is P. -/
theorem skipIf_advance_pc {P : Prop} [Decidable P] {c : Bool} (hc : c = true ↔ P) (s : State) :
    (skipIf c s.advance).pc = if P then s.pc + 4 else s.pc + 2 := by
  rw [skipIf_pc, State.advance_pc, BitVec.add_assoc]
  simp only [hc]
  rfl

/-- A key test skips when its key exists and is `down` (R240, R241). -/
theorem keySkip_advance_pc (down : Bool) (k : Byte) (s : State) :
    (keySkip down k s.advance).pc =
      if k.toNat ≤ 15 ∧ s.keys.getLsbD k.toNat = down then s.pc + 4 else s.pc + 2 := by
  unfold keySkip
  split
  · next h => rw [if_neg (by omega)]; rfl
  · next h =>
    have hk : k.toNat ≤ 15 := by omega
    exact skipIf_advance_pc (by simp [hk, State.keyDown]) s

/-- Fx0A's scan finds no key exactly when KEYS is all zero (R243). -/
theorem scanKeys_eq_none_iff (s : State) : scanKeys s = none ↔ s.keys = 0 := by
  constructor
  · intro h
    refine BitVec.eq_of_getLsbD_eq fun j hj => ?_
    exact ((scan_spec s 16).2 h j hj).trans BitVec.getLsbD_zero.symm
  · intro h
    refine scanKeys_none fun j _ => ?_
    rw [State.keyDown, h]
    exact BitVec.getLsbD_zero

/-- An instruction whose row of R35 does not name PC goes on to the next word. -/
theorem exec_pc_next {i : Instr} {s t : State} (hi : (accessMatrix i s.advance).pc = false)
    (h : exec i s.advance = .next t) : t.pc = s.pc + 2 :=
  (accessMatrixBoundsEveryInstruction i s.advance t h).pc hi

/-- The table of R92, instruction by instruction. -/
theorem exec_pcLaw {i : Instr} {s t : State} (h : exec i s.advance = .next t) : t.pc = pcLaw i s.pc s := by
  cases i with
  | seImm _ _ | seReg _ _ => cases h; exact skipIf_advance_pc beq_iff_eq s
  | sneImm _ _ | sneReg _ _ => cases h; exact skipIf_advance_pc bne_iff_ne s
  | skp _ | sknp _ => cases h; exact keySkip_advance_pc _ _ s
  | jp nnn => cases h; exact (BitVec.ofNat_toNat 16 nnn).symm
  | jpV0 nnn =>
    cases h
    show addrOperand nnn + wideOperand (s.getV reg0) = BitVec.ofNat 16 (nnn.toNat + (s.getV reg0).toNat)
    rw [BitVec.ofNat_add, BitVec.ofNat_toNat, BitVec.ofNat_toNat]
    rfl
  | call nnn =>
    show t.pc = if s.sp = s.stackDepth then s.pc + 2 else BitVec.ofNat 16 nnn.toNat
    split
    · next hFull => cases (execCall_full (s := s.advance) nnn hFull).symm.trans h; rfl
    · next hRoom =>
      cases (execCall_room (s := s.advance) nnn hRoom).symm.trans h
      exact (BitVec.ofNat_toNat 16 nnn).symm
  | ret =>
    show t.pc = if s.sp = 0 then s.pc + 2 else s.stackAt (s.sp - 1)
    split
    · next hEmpty => cases (execRet_empty (s := s.advance) hEmpty).symm.trans h; rfl
    · next hEntry => cases (execRet_entry (s := s.advance) (Nat.pos_of_ne_zero hEntry)).symm.trans h; rfl
  | ldVxK x =>
    show t.pc = if s.keys = 0 then s.pc else s.pc + 2
    have hKeys : scanKeys s.advance = none ↔ s.keys = 0 := scanKeys_eq_none_iff s.advance
    cases hScan : scanKeys s.advance with
    | none =>
      cases (execLdVxK_none x hScan).symm.trans h
      rw [if_pos (hKeys.mp hScan)]
      exact BitVec.add_sub_cancel s.pc 2
    | some b =>
      cases (execLdVxK_some x hScan).symm.trans h
      rw [if_neg fun e => by cases hScan.symm.trans (hKeys.mpr e)]
      rfl
  | _ => exact exec_pc_next rfl h

/-- Settles O13: R92's table after a fetch in range, PC as it was after one out of range. -/
theorem pcFollowsTheUpdateLaw : Obligations.PcFollowsTheUpdateLaw := by
  refine fun s t h => ⟨fun hIn => ?_, fun hOut => ?_⟩
  · rw [step_decoded hIn] at h
    exact exec_pcLaw h
  · cases (step_fetchFault hOut).symm.trans h
    rfl

/-! ### Only Cxkk reads rnd (R90, R181)

Every operation but Cxkk's commutes with presenting a byte. -/

section
variable (r : Byte)

theorem presentRnd_ite (p : Prop) [Decidable p] (a b : State) :
    (if p then a else b).presentRnd r = if p then a.presentRnd r else b.presentRnd r :=
  apply_ite (State.presentRnd · r) p a b

@[simp] theorem indexPlus_presentRnd (s : State) (k : Nat) : indexPlus (s.presentRnd r) k = indexPlus s k := rfl

theorem skipIf_presentRnd (c : Bool) (s : State) : skipIf c (s.presentRnd r) = (skipIf c s).presentRnd r := by
  cases c <;> rfl

theorem keySkip_presentRnd (down : Bool) (k : Byte) (s : State) :
    keySkip down k (s.presentRnd r) = (keySkip down k s).presentRnd r := by
  unfold keySkip
  split
  · rfl
  · exact skipIf_presentRnd r _ s

theorem memWrite_presentRnd (ea : Nat) (b : Byte) (s : State) :
    memWrite ea b (s.presentRnd r) = (memWrite ea b s).presentRnd r :=
  (presentRnd_ite r (ea ≤ 0xFFF) (s.poke ea b) (s.raise .ar)).symm

theorem storeReg_presentRnd (s : State) (k : RegIdx) : storeReg (s.presentRnd r) k = (storeReg s k).presentRnd r :=
  memWrite_presentRnd r _ _ s

theorem loadReg_presentRnd (s : State) (k : RegIdx) : loadReg (s.presentRnd r) k = (loadReg s k).presentRnd r := by
  rw [loadReg_eq, loadReg_eq, presentRnd_ite]
  rfl

theorem drawBit_presentRnd (ox oy row : Nat) (bits : Byte) (s : State) (c : Nat) :
    drawBit ox oy row bits (s.presentRnd r) c = (drawBit ox oy row bits s c).presentRnd r := by
  have hPixel : ∀ b : Bool, (if b then writeFlag 1 (s.presentRnd r) else s.presentRnd r) =
      (if b then writeFlag 1 s else s).presentRnd r := fun b =>
    (presentRnd_ite r (b = true) (writeFlag 1 s) s).symm
  unfold drawBit
  split
  · exact congrArg (State.flipDisp · (pixelIndex (ox + c) (oy + row))) (hPixel _)
  · rfl

theorem drawRow_presentRnd (ox oy : Nat) (s : State) (row : Nat) :
    drawRow ox oy (s.presentRnd r) row = (drawRow ox oy s row).presentRnd r := by
  have hStart : (if indexPlus s row ≤ 0xFFF then s.presentRnd r else (s.presentRnd r).raise .ar) =
      (if indexPlus s row ≤ 0xFFF then s else s.raise .ar).presentRnd r :=
    (presentRnd_ite r (indexPlus s row ≤ 0xFFF) s (s.raise .ar)).symm
  rw [drawRow_eq, drawRow_eq, indexPlus_presentRnd, hStart]
  exact List.foldl_hom (State.presentRnd · r) (drawBit_presentRnd r ox oy row _)

end

/-- Every instruction but Cxkk answers alike whatever byte is presented, and keeps that byte. -/
theorem exec_presentRnd {i : Instr} (hi : ∀ x kk, i ≠ .rnd x kk) {s t : State} (r : Byte) (h : exec i s = .next t) :
    exec i (s.presentRnd r) = .next (t.presentRnd r) := by
  cases i with
  | rnd x kk => exact absurd rfl (hi x kk)
  | ret =>
    rcases Nat.eq_zero_or_pos s.sp with hsp | hsp
    · cases (execRet_empty hsp).symm.trans h
      exact execRet_empty (s := s.presentRnd r) hsp
    · cases (execRet_entry hsp).symm.trans h
      exact execRet_entry (s := s.presentRnd r) hsp
  | call nnn =>
    by_cases hsp : s.sp = s.stackDepth
    · cases (execCall_full nnn hsp).symm.trans h
      exact execCall_full (s := s.presentRnd r) nnn hsp
    · cases (execCall_room nnn hsp).symm.trans h
      exact execCall_room (s := s.presentRnd r) nnn hsp
  | seImm _ _ | sneImm _ _ | seReg _ _ | sneReg _ _ =>
    cases h
    exact congrArg Host.Outcome.next (skipIf_presentRnd r _ s)
  | skp _ | sknp _ =>
    cases h
    exact congrArg Host.Outcome.next (keySkip_presentRnd r _ _ s)
  | ldVxK x =>
    cases hk : scanKeys s with
    | none =>
      cases (execLdVxK_none x hk).symm.trans h
      exact execLdVxK_none (s := s.presentRnd r) x hk
    | some b =>
      cases (execLdVxK_some x hk).symm.trans h
      exact execLdVxK_some (s := s.presentRnd r) x hk
  | drw x y n =>
    cases h
    have hRows := List.foldl_hom (State.presentRnd · r) (l := List.range (countOperand n)) (init := writeFlag 0 s)
      (drawRow_presentRnd r ((s.getV x).toNat % Config.dispW) ((s.getV y).toNat % Config.dispH))
    exact congrArg (fun u : State => Host.Outcome.next (u.setRedraw true)) hRows
  | ldB x =>
    cases h
    simp only [exec, execLdB, State.getV_presentRnd, indexPlus_presentRnd, memWrite_presentRnd]
  | storeRegs x =>
    cases h
    exact congrArg Host.Outcome.next (List.foldl_hom (State.presentRnd · r) (storeReg_presentRnd r))
  | loadRegs x =>
    cases h
    exact congrArg Host.Outcome.next (List.foldl_hom (State.presentRnd · r) (loadReg_presentRnd r))
  | _ => cases h; rfl

/-- Settles O11: a state with another rnd is one with that byte presented. -/
theorem onlyRndReadsTheRandomInput : Obligations.OnlyRndReadsTheRandomInput := fun _ _ _ r hi h =>
  exec_presentRnd hi r h

end Sys2Proof.Machine
end

section
/-! PROOFS. The display instructions (spec/40_display.md R120 to R123): CLS, one DRW, and the same DRW twice. -/

namespace Sys2Proof

open Machine

variable {i : Word → Instr}

/-! ### What selects an instruction (R97) -/

/-- A mask of the family nibble alone: the family's arm of the decoder says it all. -/
theorem selects_family (f : Nibble) (h : ∀ w, fieldFamily w = f → decodeWord w = i w) :
    Selects 0xF000 (word4 f 0 0 0) i :=
  fun w hw => h w ((and_F000 w f).mp hw)

/-- A mask of the family nibble and the low byte. -/
theorem selects_subCode (f c d : Nibble) (h : ∀ w, fieldFamily w = f → fieldKk w = c ++ d → decodeWord w = i w) :
    Selects 0xF0FF (word4 f 0 c d) i := fun w hw =>
  have ⟨hf, hk⟩ := (and_F0FF w f c d).mp hw
  h w hf hk

end Sys2Proof

namespace Sys2Proof.Machine

/-! ### CLS (R122) -/

/-- Settles O14. -/
theorem clsClearsTheScreen : Obligations.ClsClearsTheScreen := by
  refine ⟨selects_subCode 0x0 0xE 0x0 fun w hf hk => ?_, fun s => ⟨_, rfl, fun p _ => Display.bitAt_clear p, rfl, ?_⟩⟩
  · simp [decodeWord_family0 hf, decodeFamily0, hk]
  · exact accessMatrixBoundsEveryInstruction .cls s _ rfl

/-! ### One DRW (R120, R121, R123) -/

/-- Settles O15: the rows are drawn over the state with VF cleared, which shows the same picture and the same sprite. -/
theorem drwXorsTheClippedSprite : Obligations.DrwXorsTheClippedSprite := by
  refine ⟨selects_family 0xD fun w hf => by simp [decodeWord, hf], fun x y n s => ?_⟩
  obtain ⟨hPicture, -, hHit, hMiss, hFault, -⟩ :=
    drawRows_spec ((s.getV x).toNat % 64) ((s.getV y).toNat % 32) (writeFlag 0 s) n.toNat
  refine ⟨_, rfl, fun px py hx hy => ?_, ?_, fun hNone => ?_, rfl, hFault,
    accessMatrixBoundsEveryInstruction (.drw x y n) s _ rfl⟩
  · rw [← Bool.not_eq_true]
    exact hPicture px py hx hy
  · rintro ⟨px, py, hx, hy, hOn, hCovers⟩
    exact hHit ⟨px, py, hx, hy, hCovers, hOn⟩
  · have hKept := hMiss fun ⟨px, py, hx, hy, hCovers, hOn⟩ => hNone ⟨px, py, hx, hy, hOn, hCovers⟩
    exact hKept.trans ((State.getV_setV s regF regF 0).trans (if_pos rfl))

/-! ### The same DRW twice (R123) -/

/-- A change that keeps I and every byte keeps the sprite. -/
theorem spriteCovers_of_frame {w : Writes} {s t : State} (h : Frame w s t) (hi : w.index = false)
    (hb : ∀ a, ¬ w.bytes a) (n ox oy px py : Nat) : spriteCovers t n ox oy px py ↔ spriteCovers s n ox oy px py := by
  have hIndex : ∀ r, indexPlus t r = indexPlus s r := fun r => by simp only [indexPlus, h.index hi]
  have hRow : ∀ r, spriteRow t r = spriteRow s r := fun r => by simp only [spriteRow, hIndex, h.bytes _ (hb _)]
  simp only [spriteCovers, hRow]

/-- Settles O16: the second draw has the first one's origin and sprite, so it flips the covered pixels back, and it
collides where the first one left a covered pixel on. -/
theorem drawingTwiceRestoresTheScreen : Obligations.DrawingTwiceRestoresTheScreen := by
  intro x y n s hx hy
  obtain ⟨t, ht, tPicture, -, -, -, -, tFrame⟩ := drwXorsTheClippedSprite.2 x y n s
  obtain ⟨u, hu, uPicture, uHit, uMiss, -⟩ := drwXorsTheClippedSprite.2 x y n t
  simp only [tFrame.regs x hx, tFrame.regs y hy, spriteCovers_of_frame tFrame rfl fun _ h => h]
    at uPicture uHit uMiss
  refine ⟨t, u, ht, hu, fun px py hpx hpy => Bool.eq_iff_iff.mpr ?_, ?_, fun hVf => ?_⟩
  · rw [uPicture px py hpx hpy, ← Bool.not_eq_true, tPicture px py hpx hpy, ← Bool.not_eq_true]
    tauto
  · rintro ⟨px, py, hpx, hpy, hOff, hCovers⟩
    exact uHit ⟨px, py, hpx, hpy, (tPicture px py hpx hpy).mpr (.inr ⟨hOff, hCovers⟩), hCovers⟩
  · obtain ⟨px, py, hpx, hpy, hOn, hCovers⟩ := not_imp_comm.mp uMiss (by rw [hVf]; decide)
    rcases (tPicture px py hpx hpy).mp hOn with ⟨-, hClear⟩ | ⟨hOff, -⟩
    · exact absurd hCovers hClear
    · exact ⟨px, py, hpx, hpy, hOff, hCovers⟩

end Sys2Proof.Machine
end

section
/-! PROOFS. Control transfer (spec/41_control_flow.md R140 to R147): RET, CALL and the two together, the jumps and the
skips. Each frame is the instruction's row of R35. -/

namespace Sys2Proof.Machine

/-! ### The call stack (R140, R142) -/

/-- Below STACK_DEPTH, the entry read is one that exists. -/
theorem stack_getElem?_eq_stackAt {s : State} {k : Nat} (h : k < s.stackDepth) : s.stack[k]? = some (s.stackAt k) := by
  have hk : k < s.stack.length := h
  rw [State.stackAt, List.getD_eq_getElem _ _ hk, List.getElem?_eq_getElem hk]

/-- Settles O17, by the two cases of Pop. -/
theorem retPopsOrSetsSu : Obligations.RetPopsOrSetsSu := by
  refine ⟨selects_subCode 0x0 0xE 0xE fun w hf hk => ?_, fun s => ?_⟩
  · simp [decodeWord_family0 hf, decodeFamily0, hk]
  · have hFrame := accessMatrixBoundsEveryInstruction .ret s
    rcases Nat.eq_zero_or_pos s.sp with hEmpty | hEntry
    · exact ⟨_, execRet_empty hEmpty, rfl, fun _ => ⟨rfl, rfl, rfl⟩, fun h => by omega, fun h => by omega,
        hFrame _ (execRet_empty hEmpty)⟩
    · refine ⟨_, execRet_entry hEntry, rfl, fun h => by omega, fun _ => ⟨rfl, rfl, rfl⟩, fun _ hDepth => ?_,
        hFrame _ (execRet_entry hEntry)⟩
      exact stack_getElem?_eq_stackAt (by omega)

/-- Settles O19, by the two cases of Push. -/
theorem callPushesOrSetsSo : Obligations.CallPushesOrSetsSo := by
  refine ⟨selects_family 0x2 fun w hf => by simp [decodeWord, hf], fun nnn s => ?_⟩
  have hFrame := accessMatrixBoundsEveryInstruction (.call nnn) s
  by_cases hFull : s.sp = s.stackDepth
  · exact ⟨_, execCall_full nnn hFull, fun _ => ⟨rfl, rfl, rfl, rfl⟩, fun h => by omega,
      hFrame _ (execCall_full nnn hFull)⟩
  · refine ⟨_, execCall_room nnn hFull, fun h => absurd h hFull, fun hRoom => ?_, hFrame _ (execCall_room nnn hFull)⟩
    exact ⟨addrOperand_toNat nnn, rfl, List.getElem?_set_self hRoom, fun _ hk => List.getElem?_set_ne hk.symm, rfl⟩

/-- Settles O20: the entry RET takes is the one CALL pushed. -/
theorem callThenRetComesBack : Obligations.CallThenRetComesBack := by
  intro nnn s p hRoom
  obtain ⟨t, ht, -, hPush, -⟩ := callPushesOrSetsSo.2 nnn s
  obtain ⟨-, tSp, tTop, -, tFault⟩ := hPush hRoom
  obtain ⟨u, hu, -, -, hPop, -⟩ := retPopsOrSetsSu.2 { t with pc := p }
  obtain ⟨uPc, uSp, uFault⟩ := hPop (tSp ▸ Nat.succ_pos s.sp)
  have hTop : t.stackAt (t.sp - 1) = s.pc := by
    rw [State.stackAt, tSp, Nat.add_sub_cancel, List.getD_eq_getElem?_getD, tTop, Option.getD_some]
  exact ⟨t, u, ht, hu, uPc.trans hTop, by rw [uSp, tSp, Nat.add_sub_cancel], uFault.trans tFault⟩

/-! ### Jumps (R141, R147) -/

/-- Settles O18: the target is nnn zero-extended. -/
theorem jpSetsPc : Obligations.JpSetsPc :=
  ⟨selects_family 0x1 fun w hf => by simp [decodeWord, hf], fun nnn s =>
    ⟨_, rfl, addrOperand_toNat nnn, accessMatrixBoundsEveryInstruction (.jp nnn) s _ rfl⟩⟩

/-- The target of Bnnn is the exact sum (R147). -/
theorem jpV0_target_toNat (nnn : Addr12) (b : Byte) :
    (addrOperand nnn + wideOperand b).toNat = nnn.toNat + b.toNat := by
  have hn := nnn.isLt
  have hb := b.isLt
  rw [BitVec.toNat_add, addrOperand_toNat, wideOperand_toNat]
  omega

/-- Settles O23: the sum of 12 and 8 bits does not reach 2^16. -/
theorem jpV0AddsV0Unmasked : Obligations.JpV0AddsV0Unmasked :=
  ⟨selects_family 0xB fun w hf => by simp [decodeWord, hf], fun nnn s =>
    ⟨_, rfl, jpV0_target_toNat nnn _, jpV0_target_le nnn _, accessMatrixBoundsEveryInstruction (.jpV0 nnn) s _ rfl⟩⟩

/-! ### Skips (R143 to R146) -/

/-- A skip on equality, the state with PC advanced being given. -/
theorem skipIf_beq_pc (a b : Byte) (s : State) : (skipIf (a == b) s).pc = if a = b then s.pc + 2 else s.pc := by
  simp only [skipIf_pc, beq_iff_eq]

/-- A skip on inequality. -/
theorem skipIf_bne_pc (a b : Byte) (s : State) : (skipIf (a != b) s).pc = if a = b then s.pc else s.pc + 2 := by
  simp only [skipIf_pc, bne_iff_ne, ite_not]

/-- Settles O21, by the skip on equality and the skip on inequality. -/
theorem skipsOnImmediate : Obligations.SkipsOnImmediate :=
  ⟨selects_family 0x3 fun w hf => by simp [decodeWord, hf], selects_family 0x4 fun w hf => by simp [decodeWord, hf],
    fun x kk s =>
      ⟨⟨_, rfl, skipIf_beq_pc _ _ s, accessMatrixBoundsEveryInstruction (.seImm x kk) s _ rfl⟩,
        ⟨_, rfl, skipIf_bne_pc _ _ s, accessMatrixBoundsEveryInstruction (.sneImm x kk) s _ rfl⟩⟩⟩

/-- Settles O22: as O21, the second operand being a register; no bit of 3:0 is in the mask. -/
theorem skipsOnRegisters : Obligations.SkipsOnRegisters :=
  ⟨selects_family 0x5 fun w hf => by simp [decodeWord, hf], selects_family 0x9 fun w hf => by simp [decodeWord, hf],
    fun x y s =>
      ⟨⟨_, rfl, skipIf_beq_pc _ _ s, accessMatrixBoundsEveryInstruction (.seReg x y) s _ rfl⟩,
        ⟨_, rfl, skipIf_bne_pc _ _ s, accessMatrixBoundsEveryInstruction (.sneReg x y) s _ rfl⟩⟩⟩

end Sys2Proof.Machine
end

section
/-! PROOFS. The register and ALU instructions (spec/42_alu.md R169 to R181). The five that set a flag write VF first and
the result second, over VF when x = 0xF; SUB, SUBN, SHR and SHL read their operands between the two writes (D10). -/

namespace Sys2Proof

open Machine

/-- A mask of the family nibble and the sub-code of family 0x8. -/
theorem selects_alu {i : Word → Instr} (n : Nibble) (h : ∀ w, fieldN w = n → decodeFamily8 w = i w) :
    Selects 0xF00F (word4 0x8 0 0 n) i := fun w hw =>
  have ⟨hf, hn⟩ := (and_F00F w 0x8 n).mp hw
  (decodeWord_family8 hf).trans (h w hn)

end Sys2Proof

namespace Sys2Proof.Machine

/-! ### Registers -/

@[simp] theorem State.getV_setV_self (s : State) (r : RegIdx) (b : Byte) : (s.setV r b).getV r = b := by
  rw [State.getV_setV, if_pos rfl]

@[simp] theorem getV_writeFlag (f : Byte) (s : State) (q : RegIdx) :
    (writeFlag f s).getV q = if q = regF then f else s.getV q :=
  State.getV_setV s regF q f

/-- A register other than VF, written after the flag, leaves the flag. -/
theorem getV_regF_flagThenReg {x : RegIdx} (hx : x ≠ regF) (f b : Byte) (s : State) :
    ((writeFlag f s).setV x b).getV regF = f := by
  rw [State.getV_setV, if_neg hx.symm, getV_writeFlag, if_pos rfl]

/-! ### Flags and results as numbers -/

theorem carryFlag_eq (a b : Byte) : carryFlag a b = if 255 < a.toNat + b.toNat then 1 else 0 := by
  simp only [carryFlag, flagByte, gt_iff_lt, decide_eq_true_eq]

theorem noBorrowFlag_toNat (a b : Byte) : (noBorrowFlag a b).toNat = if b.toNat < a.toNat then 1 else 0 := by
  simp only [noBorrowFlag, flagByte, gt_iff_lt, decide_eq_true_eq]
  split <;> rfl

theorem lowBitFlag_toNat (a : Byte) : (lowBitFlag a).toNat = a.toNat % 2 := by
  rw [lowBitFlag, BitVec.toNat_and]
  exact Nat.and_one_is_mod _

theorem highBitFlag_toNat (a : Byte) : (highBitFlag a).toNat = a.toNat / 128 := by
  have ha := a.isLt
  calc (highBitFlag a).toNat = (a >>> 7).toNat % 2 := lowBitFlag_toNat (a >>> 7)
    _ = a.toNat / 128 % 2 := by rw [BitVec.toNat_ushiftRight, Nat.shiftRight_eq_div_pow]
    _ = a.toNat / 128 := by omega

theorem byte_sub_toNat (a b : Byte) : (a - b).toNat = (a.toNat + 256 - b.toNat) % 256 := by
  have hb := b.isLt
  rw [BitVec.toNat_sub]
  omega

theorem byte_shiftRight_one_toNat (a : Byte) : (a >>> 1).toNat = a.toNat / 2 := by
  rw [BitVec.toNat_ushiftRight, Nat.shiftRight_eq_div_pow, Nat.pow_one]

theorem byte_shiftLeft_one_toNat (a : Byte) : (a <<< 1).toNat = a.toNat * 2 % 256 := by
  rw [BitVec.toNat_shiftLeft, Nat.shiftLeft_eq, Nat.pow_one]

/-- A difference read after the flag: the flag stands for the operand that is VF (D10). -/
theorem sub_after_writeFlag_toNat (f : Byte) (u v : RegIdx) (s : State) :
    ((writeFlag f s).getV u - (writeFlag f s).getV v).toNat =
      ((if u = regF then f.toNat else (s.getV u).toNat) + 256 -
        (if v = regF then f.toNat else (s.getV v).toNat)) % 256 := by
  simp only [byte_sub_toNat, getV_writeFlag, apply_ite BitVec.toNat]

/-- The bit SHR shifts out, shifted right in its turn (D10). -/
theorem lowBitFlag_shiftRight_one (a : Byte) : lowBitFlag a >>> 1 = 0 :=
  BitVec.eq_of_toNat_eq (by
    rw [byte_shiftRight_one_toNat, lowBitFlag_toNat]
    show _ = 0
    omega)

/-- The bit SHL shifts out, shifted left in its turn (D10). -/
theorem highBitFlag_shiftLeft_one (a : Byte) : highBitFlag a <<< 1 = if 128 ≤ a.toNat then 2 else 0 :=
  BitVec.eq_of_toNat_eq (by
    have ha := a.isLt
    rw [byte_shiftLeft_one_toNat, highBitFlag_toNat]
    split
    · show _ = 2
      omega
    · show _ = 0
      omega)

/-! ### The instructions with a flag (R176 to R180) -/

/-- Settles O26: the carry and the sum are both of the old values. -/
theorem addRegistersWithCarry : Obligations.AddRegistersWithCarry := by
  refine ⟨selects_alu 0x4 fun w hn => by simp [decodeFamily8, hn], fun x y s => ⟨_, rfl, ?_, fun hx => ?_,
    accessMatrixBoundsEveryInstruction (.addReg x y) s _ rfl⟩⟩
  · rw [State.getV_setV_self, BitVec.toNat_add]
  · rw [getV_regF_flagThenReg hx, carryFlag_eq]

/-- Settles O27: f is the flag VF holds when the difference is read. -/
theorem subReadsAfterTheFlag : Obligations.SubReadsAfterTheFlag := by
  refine ⟨selects_alu 0x5 fun w hn => by simp [decodeFamily8, hn], fun x y s =>
    ⟨_, (noBorrowFlag (s.getV x) (s.getV y)).toNat, rfl, noBorrowFlag_toNat _ _, ?_, fun hx => ?_,
      accessMatrixBoundsEveryInstruction (.subReg x y) s _ rfl⟩⟩
  · rw [State.getV_setV_self, sub_after_writeFlag_toNat]
  · rw [getV_regF_flagThenReg hx]

/-- Settles O29: as O27 with the operands exchanged. -/
theorem subnReadsAfterTheFlag : Obligations.SubnReadsAfterTheFlag := by
  refine ⟨selects_alu 0x7 fun w hn => by simp [decodeFamily8, hn], fun x y s =>
    ⟨_, (noBorrowFlag (s.getV y) (s.getV x)).toNat, rfl, noBorrowFlag_toNat _ _, ?_, fun hx => ?_,
      accessMatrixBoundsEveryInstruction (.subnReg x y) s _ rfl⟩⟩
  · rw [State.getV_setV_self, sub_after_writeFlag_toNat]
  · rw [getV_regF_flagThenReg hx]

/-- Settles O28: what is shifted is the old value, or the flag when x = 0xF. -/
theorem shrShiftsOutBitZero : Obligations.ShrShiftsOutBitZero := by
  refine ⟨selects_alu 0x6 fun w hn => by simp [decodeFamily8, hn], fun x s => ⟨_, rfl, fun hx => ⟨?_, ?_⟩, ?_,
    accessMatrixBoundsEveryInstruction (.shr x) s _ rfl⟩⟩
  · rw [State.getV_setV_self, getV_writeFlag, if_neg hx, byte_shiftRight_one_toNat]
  · rw [getV_regF_flagThenReg hx, lowBitFlag_toNat]
  · rintro rfl
    rw [State.getV_setV_self, getV_writeFlag, if_pos rfl, lowBitFlag_shiftRight_one]

/-- Settles O30: as O28, to the left. -/
theorem shlShiftsOutBitSeven : Obligations.ShlShiftsOutBitSeven := by
  refine ⟨selects_alu 0xE fun w hn => by simp [decodeFamily8, hn], fun x s => ⟨_, rfl, fun hx => ⟨?_, ?_⟩, ?_,
    accessMatrixBoundsEveryInstruction (.shl x) s _ rfl⟩⟩
  · rw [State.getV_setV_self, getV_writeFlag, if_neg hx, byte_shiftLeft_one_toNat]
  · rw [getV_regF_flagThenReg hx, highBitFlag_toNat]
  · rintro rfl
    rw [State.getV_setV_self, getV_writeFlag, if_pos rfl, highBitFlag_shiftLeft_one]

/-! ### The instructions without a flag (R170 to R175, R181) -/

/-- Settles O24: one register is written, with kk or the sum. -/
theorem immediateLoadAndAdd : Obligations.ImmediateLoadAndAdd := by
  refine ⟨selects_family 0x6 fun w hf => by simp [decodeWord, hf],
    selects_family 0x7 fun w hf => by simp [decodeWord, hf], fun x kk s =>
      ⟨⟨_, rfl, State.getV_setV_self s x kk, accessMatrixBoundsEveryInstruction (.ldImm x kk) s _ rfl⟩,
        ⟨_, rfl, ?_, accessMatrixBoundsEveryInstruction (.addImm x kk) s _ rfl⟩⟩⟩
  rw [State.getV_setV_self, BitVec.toNat_add]

/-- Settles O25: one register is written, with the result. -/
theorem assignAndLogic : Obligations.AssignAndLogic := by
  refine ⟨selects_alu 0x0 fun w hn => by simp [decodeFamily8, hn],
    selects_alu 0x1 fun w hn => by simp [decodeFamily8, hn], selects_alu 0x2 fun w hn => by simp [decodeFamily8, hn],
    selects_alu 0x3 fun w hn => by simp [decodeFamily8, hn], fun x y s => ?_⟩
  have hReg := State.getV_setV_self s x
  have hFrame := fun i => accessMatrixBoundsEveryInstruction i s
  exact ⟨⟨_, rfl, hReg _, hFrame (.ldReg x y) _ rfl⟩, ⟨_, rfl, hReg _, hFrame (.orReg x y) _ rfl⟩,
    ⟨_, rfl, hReg _, hFrame (.andReg x y) _ rfl⟩, ⟨_, rfl, hReg _, hFrame (.xorReg x y) _ rfl⟩⟩

theorem Frame.presentRnd {w : Writes} (hw : w.random = true) (s : State) (r : Byte) : Frame w s (s.presentRnd r) :=
  { Frame.refl w s with random := fun e => by rw [hw] at e; cases e }

/-- Settles O31: the byte ANDed is the one presented; presenting it changes only the model's own `rnd`. -/
theorem rndMasksTheHostsByte : Obligations.RndMasksTheHostsByte :=
  ⟨selects_family 0xC fun w hf => by simp [decodeWord, hf], fun x kk r s =>
    ⟨_, rfl, State.getV_setV_self _ x _, (Frame.presentRnd rfl s r).trans
      (accessMatrixBoundsEveryInstruction (.rnd x kk) (s.presentRnd r) _ rfl)⟩⟩

end Sys2Proof.Machine
end

section
/-! PROOFS. The index register and the memory instructions (spec/43_index_memory.md R210 to R215). Each frame is the
instruction's row of R35. -/

namespace Sys2Proof

open Machine

/-- A mask of the family nibble and the sub-code of family 0xF. -/
theorem selects_familyF {i : Word → Instr} (c d : Nibble) (h : ∀ w, fieldKk w = c ++ d → decodeFamilyF w = i w) :
    Selects 0xF0FF (word4 0xF 0 c d) i :=
  selects_subCode 0xF c d fun w hf hk => (decodeWord_familyF hf).trans (h w hk)

end Sys2Proof

namespace Sys2Proof.Machine

/-! ### New values as numbers -/

/-- A number that fits the width. -/
theorem toNat_ofNat_of_lt {m n : Nat} (h : n < 2 ^ m) : (BitVec.ofNat m n).toNat = n := by
  rw [BitVec.toNat_ofNat, Nat.mod_eq_of_lt h]

/-- The glyph address of the largest byte is still far below 2^16 (R212). -/
theorem glyphAddress_toNat (b : Byte) : (glyphAddress b).toNat = b.toNat * 5 + 0x050 := by
  have hb := b.isLt
  exact toNat_ofNat_of_lt (show b.toNat * 5 + 0x050 < 65536 by omega)

theorem hundreds_toNat (b : Byte) : (hundreds b).toNat = b.toNat / 100 :=
  toNat_ofNat_of_lt (by have := b.isLt; omega)

theorem tens_toNat (b : Byte) : (tens b).toNat = b.toNat / 10 % 10 :=
  toNat_ofNat_of_lt (by omega)

theorem ones_toNat (b : Byte) : (ones b).toNat = b.toNat % 10 :=
  toNat_ofNat_of_lt (by omega)

/-- AR is bit 3 of FAULT (R32). -/
theorem FaultBit.ar_mask : FaultBit.ar.mask = 0x08#8 := rfl

/-- Different offsets from I are different addresses: none wraps (R64). -/
theorem indexPlus_inj {s : State} {j k : Nat} : indexPlus s j = indexPlus s k ↔ j = k := Nat.add_left_cancel_iff

/-! ### The index register (R210 to R212) -/

/-- Settles O32: the operand is zero-extended. -/
theorem ldISetsTheIndex : Obligations.LdISetsTheIndex :=
  ⟨selects_family 0xA fun w hf => by simp [decodeWord, hf], fun nnn s =>
    ⟨_, rfl, addrOperand_toNat nnn, accessMatrixBoundsEveryInstruction (.ldI nnn) s _ rfl⟩⟩

/-- Settles O33: the sum of two words is modulo 2^16, and only I is in the instruction's row of R35. -/
theorem addIWrapsAtSixteenBits : Obligations.AddIWrapsAtSixteenBits := by
  refine ⟨selects_familyF 0x1 0xE fun w hk => by simp [decodeFamilyF, hk], fun x s =>
    ⟨_, rfl, ?_, accessMatrixBoundsEveryInstruction (.addI x) s _ rfl⟩⟩
  rw [State.setI_i, BitVec.toNat_add, wideOperand_toNat]

/-- Settles O34: no byte is too large for its glyph address to be exact. -/
theorem ldFPointsAtTheGlyph : Obligations.LdFPointsAtTheGlyph :=
  ⟨selects_familyF 0x2 0x9 fun w hk => by simp [decodeFamilyF, hk], fun x s =>
    ⟨_, rfl, glyphAddress_toNat _, accessMatrixBoundsEveryInstruction (.ldF x) s _ rfl⟩⟩

/-! ### The stores and the load (R213 to R215) -/

/-- Settles O35: the three addresses differ, so no digit is stored over another. -/
theorem ldBStoresThreeDigits : Obligations.LdBStoresThreeDigits := by
  refine ⟨selects_familyF 0x3 0x3 fun w hk => by simp [decodeFamilyF, hk], fun x s => ?_⟩
  obtain ⟨t, ht, hBytes, hFault, -⟩ := execLdB_spec x s
  refine ⟨t, ht, fun h0 => ?_, fun h1 => ?_, fun h2 => ?_, hFault,
    accessMatrixBoundsEveryInstruction (.ldB x) s t ht⟩
  · simp [hBytes, indexPlus_inj, h0, hundreds_toNat]
  · simp [hBytes, indexPlus_inj, h1, tens_toNat]
  · simp [hBytes, h2, ones_toNat]

/-- Settles O36, by the loop over x + 1 registers. -/
theorem storeRegistersFillsMemory : Obligations.StoreRegistersFillsMemory := by
  refine ⟨selects_familyF 0x5 0x5 fun w hk => by simp [decodeFamilyF, hk], fun x s => ?_⟩
  obtain ⟨hStored, -, hFault, -⟩ := storeRegs_spec s (x.val + 1) x.isLt
  refine ⟨_, rfl, fun r hr => hStored r.val (Nat.lt_succ_of_le hr), ?_,
    accessMatrixBoundsEveryInstruction (.storeRegs x) s _ rfl⟩
  simpa [FaultBit.ar_mask] using hFault

/-- Settles O37, by the loop over x + 1 registers. -/
theorem loadRegistersReadMemory : Obligations.LoadRegistersReadMemory := by
  refine ⟨selects_familyF 0x6 0x5 fun w hk => by simp [decodeFamilyF, hk], fun x s => ?_⟩
  obtain ⟨hLoaded, hFault, -⟩ := loadRegs_spec s (x.val + 1) x.isLt
  refine ⟨_, rfl, fun r hr => ?_, ?_, accessMatrixBoundsEveryInstruction (.loadRegs x) s _ rfl⟩
  · simpa [Nat.lt_succ_of_le hr] using hLoaded r
  · simpa [FaultBit.ar_mask] using hFault

end Sys2Proof.Machine
end

section
/-! PROOFS. The key and timer instructions (spec/44_keys_timers.md R240 to R245). Each frame is the instruction's row of
R35. -/

namespace Sys2Proof

open Machine

/-- A mask of the family nibble and the sub-code of family 0xE. -/
theorem selects_familyE {i : Word → Instr} (c d : Nibble) (h : ∀ w, fieldKk w = c ++ d → decodeFamilyE w = i w) :
    Selects 0xF0FF (word4 0xE 0 c d) i :=
  selects_subCode 0xE c d fun w hf hk => (decodeWord_familyE hf).trans (h w hk)

end Sys2Proof

namespace Sys2Proof.Machine

/-! ### The key tests (R240, R241) -/

/-- An index above 15 names no key: the test sets KR (D6). -/
theorem keySkip_out {k : Byte} (h : 15 < k.toNat) (down : Bool) (s : State) : keySkip down k s = s.raise .kr :=
  if_pos h

/-- An index up to 15 names a key: the test is a skip on that key's state. -/
theorem keySkip_in {k : Byte} (h : k.toNat ≤ 15) (down : Bool) (s : State) :
    keySkip down k s = skipIf (s.keyDown k.toNat == down) s :=
  if_neg (Nat.not_lt_of_le h)

/-- What SKP and SKNP do to PC and FAULT, the state with PC advanced being given. -/
theorem keySkip_spec (down : Bool) (k : Byte) (s : State) :
    (15 < k.toNat → (keySkip down k s).pc = s.pc ∧ (keySkip down k s).fault = s.fault ||| 0x04#8) ∧
    (k.toNat ≤ 15 → (keySkip down k s).fault = s.fault ∧
      (keySkip down k s).pc = if s.keys.getLsbD k.toNat = down then s.pc + 2 else s.pc) := by
  refine ⟨fun hOut => ?_, fun hIn => ?_⟩
  · rw [keySkip_out hOut]
    exact ⟨rfl, rfl⟩
  · rw [keySkip_in hIn]
    refine ⟨by rw [skipIf_rest], ?_⟩
    simp only [skipIf_pc, beq_iff_eq, State.keyDown]

/-- Settles O40: SKP and SKNP are the one key test, for a key that is down and for one that is up. -/
theorem keySkipsOrSetKr : Obligations.KeySkipsOrSetKr := by
  refine ⟨selects_familyE 0x9 0xE fun w hk => by simp [decodeFamilyE, hk],
    selects_familyE 0xA 0x1 fun w hk => by simp [decodeFamilyE, hk], fun x s => ⟨?_, ?_⟩⟩
  · obtain ⟨hOut, hIn⟩ := keySkip_spec true (s.getV x) s
    exact ⟨_, rfl, hOut, hIn, accessMatrixBoundsEveryInstruction (.skp x) s _ rfl⟩
  · obtain ⟨hOut, hIn⟩ := keySkip_spec false (s.getV x) s
    refine ⟨_, rfl, hOut, fun hKey => ?_, accessMatrixBoundsEveryInstruction (.sknp x) s _ rfl⟩
    simpa only [← Bool.not_eq_true, ite_not] using hIn hKey

/-! ### The timers (R242, R244, R245) -/

/-- Settles O41: each is one write of one field. -/
theorem timersReadAndSet : Obligations.TimersReadAndSet :=
  ⟨selects_familyF 0x0 0x7 fun w hk => by simp [decodeFamilyF, hk],
    selects_familyF 0x1 0x5 fun w hk => by simp [decodeFamilyF, hk],
    selects_familyF 0x1 0x8 fun w hk => by simp [decodeFamilyF, hk], fun x s =>
      ⟨⟨_, rfl, State.getV_setV_self s x s.dt, accessMatrixBoundsEveryInstruction (.ldVxDt x) s _ rfl⟩,
        ⟨_, rfl, rfl, accessMatrixBoundsEveryInstruction (.ldDtVx x) s _ rfl⟩,
        ⟨_, rfl, rfl, accessMatrixBoundsEveryInstruction (.ldStVx x) s _ rfl⟩⟩⟩

/-! ### The wait for a key (R243) -/

/-- Settles O42: the scan ends with none when every key is up, and else with the highest key that is down. -/
theorem waitForKeyTakesTheHighest : Obligations.WaitForKeyTakesTheHighest := by
  refine ⟨selects_familyF 0x0 0xA fun w hk => by simp [decodeFamilyF, hk], fun x s => ?_⟩
  obtain ⟨t, ht⟩ := exec_next (.ldVxK x) s
  refine ⟨t, ht, fun hUp => ?_, fun k hk hDown hHighest => ?_, accessMatrixBoundsEveryInstruction (.ldVxK x) s t ht⟩
  · cases ht.symm.trans (execLdVxK_none x (scanKeys_none hUp))
    exact ⟨rfl, rfl⟩
  · cases ht.symm.trans (execLdVxK_some x (scanKeys_highest hk hDown hHighest))
    refine ⟨rfl, ?_⟩
    rw [State.getV_setV_self]
    exact toNat_ofNat_of_lt (show k < 256 by omega)

end Sys2Proof.Machine
end

section
/-! PROOFS. FAULT (spec/60_exceptions.md R270 to R273): which bits an instruction sets, that a STEP sets at most one, and
that only RESET clears one. -/

namespace Sys2Proof.Machine

/-! ### FAULT with at most one bit raised (R271, R273) -/

/-- FAULT of `t` is that of `s` with the bits of `cause` raised, and `cause` holds of at most one bit. -/
inductive FaultsBy (cause : FaultBit → Prop) (s t : State) : Prop where
  | kept (hCause : ∀ b, ¬ cause b) (hFault : t.fault = s.fault)
  | raised (b : FaultBit) (hCause : ∀ c, cause c ↔ c = b) (hFault : t.fault = (s.raise b).fault)

namespace FaultsBy

variable {cause : FaultBit → Prop} {s t : State}

/-- One bit with one condition: the shape of the rows of R271. -/
theorem of_ite {b : FaultBit} {P Q : Prop} [Decidable Q] (hPQ : P ↔ ¬ Q)
    (h : t.fault = if Q then s.fault else (s.raise b).fault) : FaultsBy (fun c => c = b ∧ P) s t := by
  by_cases hQ : Q
  · exact .kept (fun c hc => hPQ.mp hc.2 hQ) (by rw [h, if_pos hQ])
  · exact .raised b (fun c => and_iff_left (hPQ.mpr hQ)) (by rw [h, if_neg hQ])

/-- A frame without FAULT bits, for an instruction without a row in R271. -/
theorem of_frame {w : Writes} (h : Frame w s t) (hw : ∀ b, ¬ w.faults b) (hc : ∀ b, ¬ cause b) : FaultsBy cause s t :=
  .kept hc (BitVec.eq_of_getLsbD_eq fun n _ => h.faults n fun b hb => absurd hb (hw b))

theorem bit_iff (h : FaultsBy cause s t) (b : FaultBit) :
    t.fault.getLsbD b.index = true ↔ (s.fault.getLsbD b.index = true ∨ cause b) := by
  cases h with
  | kept hCause hFault => rw [hFault, or_iff_left (hCause b)]
  | raised c hCause hFault =>
    have hIndex : b.index = c.index ↔ b = c := ⟨FaultBit.index_injective, congrArg _⟩
    rw [hFault, State.raise_bit, Bool.or_eq_true, decide_eq_true_iff, hCause, hIndex]

/-- Bits 7:5 are no FAULT bit's (R32). -/
theorem reserved (h : FaultsBy cause s t) {n : Nat} (hn : 5 ≤ n) : t.fault.getLsbD n = s.fault.getLsbD n := by
  cases h with
  | kept _ hFault => rw [hFault]
  | raised b _ hFault =>
    have hOther : n ≠ b.index := Nat.ne_of_gt (Nat.lt_of_lt_of_le b.index_lt hn)
    rw [hFault, State.raise_bit, decide_eq_false hOther, Bool.or_false]

theorem atMostOne (h : FaultsBy cause s t) : ∃ b : FaultBit, t.fault = s.fault ∨ t.fault = s.fault ||| b.mask := by
  cases h with
  | kept _ hFault => exact ⟨.fr, .inl hFault⟩
  | raised b _ hFault => exact ⟨b, .inr hFault⟩

end FaultsBy

/-! ### Every instruction (R271) -/

/-- Of the first n addresses from I one does not exist exactly when the last one does not (R64). -/
theorem exists_lt_above_iff (s : State) (n : Nat) :
    (∃ k, k < n ∧ 0xFFF < indexPlus s k) ↔ ¬ (n = 0 ∨ indexPlus s (n - 1) ≤ 0xFFF) := by
  simp only [indexPlus]
  constructor
  · rintro ⟨k, hk, hAbove⟩
    omega
  · intro h
    exact ⟨n - 1, by omega, by omega⟩

theorem exists_le_above_iff (s : State) (n : Nat) :
    (∃ k, k ≤ n ∧ 0xFFF < indexPlus s k) ↔ ¬ indexPlus s n ≤ 0xFFF := by
  simpa using exists_lt_above_iff s (n + 1)

theorem keySkip_fault (down : Bool) (k : Byte) (s : State) :
    (keySkip down k s).fault = if k.toNat ≤ 15 then s.fault else (s.raise .kr).fault := by
  split
  · next hIn => rw [keySkip_in hIn, skipIf_rest]
  · next hOut => rw [keySkip_out (Nat.lt_of_not_le hOut)]

/-- Every instruction raises exactly the bit whose condition in R271 holds. -/
theorem exec_faultsBy {i : Instr} {s t : State} (h : exec i s = .next t) : FaultsBy (raises i s) s t := by
  have hFrame := accessMatrixBoundsEveryInstruction i s t h
  cases i with
  | ret =>
    refine .of_ite (Q := 0 < s.sp) (by omega) ?_
    split
    · next hSp => cases h.symm.trans (execRet_entry hSp); rfl
    · next hSp => cases h.symm.trans (execRet_empty (Nat.eq_zero_of_not_pos hSp)); rfl
  | call nnn =>
    refine .of_ite (Q := s.sp ≠ s.stackDepth) not_not.symm ?_
    split
    · next hSp => cases h.symm.trans (execCall_room nnn hSp); rfl
    · next hSp => cases h.symm.trans (execCall_full nnn (not_not.mp hSp)); rfl
  | skp x | sknp x =>
    cases h
    exact .of_ite Nat.not_le.symm (keySkip_fault _ (s.getV x) s)
  | drw x y n =>
    obtain ⟨u, hu, -, hFault, -⟩ := execDrw_spec x y n s
    cases h.symm.trans hu
    exact .of_ite (exists_lt_above_iff s n.toNat) hFault
  | ldB x =>
    obtain ⟨u, hu, -, hFault, -⟩ := execLdB_spec x s
    cases h.symm.trans hu
    exact .of_ite (exists_le_above_iff s 2) hFault
  | storeRegs x =>
    cases h
    obtain ⟨-, -, hFault, -⟩ := storeRegs_spec s (x.val + 1) x.isLt
    exact .of_ite (exists_le_above_iff s x.val) (by simpa using hFault)
  | loadRegs x =>
    cases h
    obtain ⟨-, hFault, -⟩ := loadRegs_spec s (x.val + 1) x.isLt
    exact .of_ite (exists_le_above_iff s x.val) (by simpa using hFault)
  | _ => exact .of_frame hFrame (fun _ hb => hb) (fun _ hb => hb)

/-- Settles O43: FR is the fetch's, the other bits are the instructions'. -/
theorem faultBitsHaveExactlyTheirCauses : Obligations.FaultBitsHaveExactlyTheirCauses := by
  refine ⟨fun i s t h => ⟨(exec_faultsBy h).bit_iff, fun n => (exec_faultsBy h).reserved⟩, fun s t hpc h => ?_⟩
  cases h.symm.trans (step_fetchFault hpc)
  rfl

/-! ### Every STEP and every transaction (R272, R273) -/

/-- Settles O44: a STEP is the fetch fault, or one instruction from a state with the same FAULT. -/
theorem oneStepRaisesAtMostOneBit : Obligations.OneStepRaisesAtMostOneBit := by
  intro s t h
  rcases step_cases s with ⟨-, hFetch⟩ | ⟨-, hExec⟩
  · cases h.symm.trans hFetch
    exact ⟨.fr, .inr rfl⟩
  · exact (exec_faultsBy (hExec.symm.trans h)).atMostOne

theorem step_keeps_bit {s t : State} (h : step s = .next t) {n : Nat} (hn : s.fault.getLsbD n = true) :
    t.fault.getLsbD n = true := by
  obtain ⟨b, hSame | hRaised⟩ := oneStepRaisesAtMostOneBit s t h
  · rw [hSame, hn]
  · rw [hRaised, BitVec.getLsbD_or, hn, Bool.true_or]

@[simp] theorem doLoad_fault (offset : Nat) (b : Byte) (s : State) : (doLoad offset b s).fault = s.fault := by
  unfold doLoad
  split <;> rfl

/-- Settles O45: a STEP only raises a bit, and the other transactions but RESET do not touch FAULT. -/
theorem faultBitsAreStickyUntilReset : Obligations.FaultBitsAreStickyUntilReset := by
  refine ⟨fun tr s t o hReset h n hn => ?_, fun s t o h => by cases h; rfl⟩
  cases tr with
  | reset => exact absurd rfl hReset
  | load offset b =>
    cases h
    rwa [doLoad_fault]
  | step rnd =>
    obtain ⟨u, hu⟩ := step_next (s.presentRnd rnd)
    cases h.symm.trans (transact_step hu)
    exact step_keeps_bit hu hn
  | setKeys _ | tick | ackRedraw | read =>
    cases h
    exact hn

end Sys2Proof.Machine
end

section
/-! PROOFS. The host's transactions (spec/60_exceptions.md R270, R278 to R284): every schedule completes with one output to
a transaction, the host's schedule at a fixed ratio, TICK, the three that touch one item, and LOAD. -/

namespace Sys2Proof.Machine

/-! ### Every schedule (R36, R270) -/

/-- Every transaction answers a next state, and a tone edge exactly when it is a TICK (R37). -/
theorem transact_next (tr : Transaction) (s : State) :
    ∃ t o, transact tr s = .next (t, o) ∧ o.isToneEdge = tr.isTick := by
  cases tr with
  | step rnd =>
    obtain ⟨t, ht⟩ := step_next (s.presentRnd rnd)
    exact ⟨t, _, transact_step ht, rfl⟩
  | reset | load _ _ | setKeys _ | tick | ackRedraw | read => exact ⟨_, _, rfl, rfl⟩

/-- Every schedule completes, and its outputs tell TICKs from the other transactions, one by one. -/
theorem runTransactions_next (trs : List Transaction) (s : State) :
    ∃ t os, runTransactions trs s = .next (t, os) ∧ os.map Output.isToneEdge = trs.map Transaction.isTick := by
  induction trs generalizing s with
  | nil => exact ⟨s, [], rfl, rfl⟩
  | cons tr rest ih =>
    obtain ⟨s1, o, h1, hOut⟩ := transact_next tr s
    obtain ⟨t, os, h2, hOuts⟩ := ih s1
    exact ⟨t, o :: os, runTransactions_cons h1 h2, congrArg₂ List.cons hOut hOuts⟩

/-- Settles O12: as many outputs as transactions, since they correspond one by one. -/
theorem everyScheduleCompletes : Obligations.EveryScheduleCompletes := by
  intro trs s
  obtain ⟨t, os, h, hOuts⟩ := runTransactions_next trs s
  exact ⟨t, os, h, by simpa using congrArg List.length hOuts⟩

/-! ### The host's schedule at a fixed ratio (R280) -/

theorem tickPeriod_countP_isStep (stepsPerTick : Nat) (keys : BitVec 16) (rnd : Nat → Byte) :
    (tickPeriod stepsPerTick keys rnd).countP Transaction.isStep = stepsPerTick := by
  have hSteps : Transaction.isStep ∘ (fun j => .step (rnd j)) = fun _ => true := rfl
  simp [tickPeriod, List.countP_map, hSteps, Transaction.isStep]

theorem tickPeriod_countP_isTick (stepsPerTick : Nat) (keys : BitVec 16) (rnd : Nat → Byte) :
    (tickPeriod stepsPerTick keys rnd).countP Transaction.isTick = 1 := by
  have hSteps : Transaction.isTick ∘ (fun j => .step (rnd j)) = fun _ => false := rfl
  simp [tickPeriod, List.countP_map, hSteps, Transaction.isTick]

/-- What each period holds k times, n periods hold n * k times. -/
theorem hostSchedule_countP {stepsPerTick k : Nat} {keys : Nat → BitVec 16} {rnd : Nat → Nat → Byte}
    {p : Transaction → Bool} (hp : ∀ j, (tickPeriod stepsPerTick (keys j) (rnd j)).countP p = k) (n : Nat) :
    (hostSchedule stepsPerTick keys rnd n).countP p = n * k := by
  induction n with
  | zero => simp [hostSchedule]
  | succ n ih => rw [hostSchedule, List.countP_append, ih, hp, Nat.succ_mul]

/-- Settles O59: a schedule answers one tone edge output to each of its TICKs, and a period holds one TICK. -/
theorem hostScheduleKeepsTheRatio : Obligations.HostScheduleKeepsTheRatio := by
  intro stepsPerTick keys rnd n s
  obtain ⟨t, os, h, hOuts⟩ := runTransactions_next (hostSchedule stepsPerTick keys rnd n) s
  have hTicks : (hostSchedule stepsPerTick keys rnd n).countP Transaction.isTick = n := by
    rw [hostSchedule_countP (fun _ => tickPeriod_countP_isTick ..), Nat.mul_one]
  have hEdges : os.countP Output.isToneEdge = (hostSchedule stepsPerTick keys rnd n).countP Transaction.isTick := by
    simpa [List.countP_map] using congrArg (List.countP id) hOuts
  exact ⟨t, os, h, hostSchedule_countP (fun _ => tickPeriod_countP_isStep ..) n, hTicks, hEdges.trans hTicks⟩

/-! ### TICK (R278, R279) -/

theorem countDown_toNat (b : Byte) : (countDown b).toNat = b.toNat - 1 := by
  unfold countDown
  split
  · next h => rw [h]; rfl
  · next h =>
    have hPos : 1 ≤ b.toNat := Nat.one_le_iff_ne_zero.mpr fun e => h (BitVec.eq_of_toNat_eq e)
    exact BitVec.toNat_sub_of_le hPos

/-- Settles O54: ST reaches 0 from 1 and from 0, and the edge is for 1 alone. -/
theorem tickCountsDownAndReportsTheEdge : Obligations.TickCountsDownAndReportsTheEdge := by
  intro s
  have hEdge : (s.st == 1) = true ↔ s.st.toNat = 1 ∧ (countDown s.st).toNat = 0 := by
    rw [beq_iff_eq, ← BitVec.toNat_inj, countDown_toNat]
    show s.st.toNat = 1 ↔ _
    omega
  exact ⟨_, _, rfl, countDown_toNat s.dt, countDown_toNat s.st, hEdge,
    (Frame.setDt rfl s _).trans (Frame.setSt rfl _ _)⟩

/-! ### ACK_REDRAW, SET_KEYS and READ (R281, R282, R284) -/

/-- Settles O55: each is one write of one field, or none; the snapshot blanks the model's own fields only. -/
theorem ackSetKeysAndReadChangeOnlyTheirItem : Obligations.AckSetKeysAndReadChangeOnlyTheirItem :=
  fun s _ => ⟨rfl, rfl, snapshotOf s, rfl, rfl⟩

/-! ### LOAD (R283) -/

theorem doLoad_in {offset : Nat} (h : offset < 3584) (b : Byte) (s : State) :
    doLoad offset b s = s.poke (0x200 + offset) b := if_pos h

theorem doLoad_out {offset : Nat} (h : 3584 ≤ offset) (b : Byte) (s : State) : doLoad offset b s = s :=
  if_neg (Nat.not_lt_of_le h)

/-- An image that fits stands at its offset after its LOADs, and every frame that names its bytes frames them. -/
theorem runTransactions_loadImage (image : List Byte) {offset : Nat} (s : State) (hFit : offset + image.length ≤ 3584) :
    ∃ t os, runTransactions (loadImage image offset) s = .next (t, os) ∧
      (∀ k, k < image.length → image[k]? = some (t.peek (0x200 + offset + k))) ∧
      ∀ w : Writes, (∀ k, k < image.length → w.bytes (0x200 + offset + k)) → Frame w s t := by
  induction image generalizing offset s with
  | nil => exact ⟨s, [], rfl, fun k hk => absurd hk (Nat.not_lt_zero k), fun w _ => Frame.refl w s⟩
  | cons b rest ih =>
    rw [List.length_cons] at hFit ⊢
    obtain ⟨t, os, hRun, hRest, hFrame⟩ := ih (doLoad offset b s) (offset := offset + 1) (by omega)
    rw [doLoad_in (by omega)] at hFrame
    have hNext : ∀ k, 0x200 + (offset + 1) + k = 0x200 + offset + (k + 1) := fun k => by omega
    simp only [hNext] at hRest hFrame
    refine ⟨t, .silent :: os, runTransactions_cons rfl hRun, fun k hk => ?_, fun w hw => ?_⟩
    · cases k with
      | zero =>
        have hLater : Frame { bytes := fun a => 0x200 + offset < a } (s.poke (0x200 + offset) b) t :=
          hFrame _ fun k _ => Nat.lt_add_of_pos_right (Nat.succ_pos k)
        rw [Nat.add_zero, hLater.bytes _ (Nat.lt_irrefl _), State.peek_poke, if_pos rfl]
        rfl
      | succ k => exact hRest k (Nat.lt_of_succ_lt_succ hk)
    · exact (Frame.poke (hw 0 (Nat.succ_pos _)) s b).trans (hFrame w fun k hk => hw (k + 1) (Nat.succ_lt_succ hk))

/-- Settles O56: LOAD is one write of a byte in range, and an image is loaded byte by byte. -/
theorem loadFillsTheProgramRegion : Obligations.LoadFillsTheProgramRegion := by
  refine ⟨fun s offset b => ⟨_, rfl, fun hIn => ?_, fun hOut => doLoad_out hOut b s⟩, fun image s hLen => ?_⟩
  · rw [doLoad_in (Nat.lt_succ_of_le hIn)]
    exact ⟨by rw [State.peek_poke, if_pos rfl], Frame.poke rfl s b⟩
  · obtain ⟨t, os, hRun, hImage, hFrame⟩ := runTransactions_loadImage image (offset := 0) s (by omega)
    exact ⟨t, os, hRun, hImage, hFrame _ fun k hk => ⟨Nat.le_add_right _ k, Nat.add_lt_add_left hk _⟩⟩

end Sys2Proof.Machine
end
